-- ==== Sys2Proof/Word.lean ====
section
/-! DEFINITION. The word and byte types of HUBC (rules R7 and R8): a register is 32 bits, a byte 8 bits. -/

namespace Sys2Proof

/-- A 32-bit register value, bit 31 the most significant (R8). -/
abbrev Word := BitVec 32

/-- A byte, bit 7 the most significant (R7). -/
abbrev Byte := BitVec 8

/-- A byte string, numbered from its first byte (R7). -/
abbrev Bytes := List Byte

end Sys2Proof
end

