-- ==== Sys2Proof/Config.lean ====
section
/-! DEFINITION. The parameters of HUBC (R6) and the constants the source fixes. Each literal is written once, here. -/

namespace Sys2Proof

/-- `ID_VALUE` (R6, R16): the ASCII codes of "HUBC". -/
abbrev Config.idValue : Word := 0x48554243#32

/-- `VERSION_VALUE` (R6, R17). -/
abbrev Config.versionValue : Word := 0x00000001#32

/-- `REG_WINDOW` (R6): the bytes of the register window. -/
abbrev Config.regWindow : Nat := 4096

/-- `BUS_WIDTH` (R6). -/
abbrev Config.busWidth : Nat := 32

/-- `BUF_SIZE` (R6, R47). -/
abbrev Config.bufSize : Nat := 512

/-- The tag length (R6, R81). -/
abbrev Config.tagLen : Nat := 4

/-- The length of the full MAC (R6, R80). -/
abbrev Config.macLen : Nat := 16

/-- The nonce length (R6, R95). -/
abbrev Config.nonceLen : Nat := 12

/-- The minimum packet length (R6, R101); a packet is its payload and this many bytes. -/
abbrev Config.minPacket : Nat := 10

/-- The length of the MAC input `raw[0:6]` (R6, R103). -/
abbrev Config.macInputLen : Nat := 6

/-- The sequence mask (R6, R102). -/
abbrev Config.seqMask : Nat := 0x3FF

/-- Seconds in a day (R6, R108). -/
abbrev Config.secondsPerDay : Int := 86400

/-- The largest TimeCounter (R30, R109). -/
abbrev Config.maxTimeCounter : Int := 4294967295

/-- The reset value of WINDOW, the source's default of 2 days (R6, R33). -/
abbrev Config.defaultWindow : BitVec 16 := 2#16

/-- Which 4096-byte page of the platform's address space the window fills. The spec leaves `BASE_ADDR` OPEN (R6), so this
constant has no body and no statement can rest on its value. -/
opaque Config.basePage : Nat

/-- `BASE_ADDR` (R6): the platform address of offset 0, 4096-byte aligned. -/
def Config.baseAddr : Nat := Config.regWindow * Config.basePage

end Sys2Proof
end

