-- ==== Sys2Proof/Machine/Bytes.lean ====
section
/-! DEFINITION. Byte strings (R7): slices, big-endian integers, exclusive or, and the byte lanes of a bus word (R48, R49). -/

namespace Sys2Proof.Machine

/-- `bytes(n)`: n zero bytes (R7). -/
def zeros (n : Nat) : Bytes := List.replicate n 0

/-- `s[a:b]`: the bytes a to b-1 (R7). -/
def slice (s : Bytes) (a b : Nat) : Bytes := (s.drop a).take (b - a)

/-- `int_be(s)`: the unsigned integer whose big-endian encoding is `s` (R7). -/
def intBe (s : Bytes) : Nat := s.foldl (fun acc b => 256 * acc + b.toNat) 0

/-- The n-byte big-endian string of `v` (R7), most significant byte first. -/
def be : Nat → Nat → Bytes
  | 0, _ => []
  | n + 1, v => BitVec.ofNat 8 (v / 256 ^ n) :: be n v

/-- `BE16(v)` (R7). -/
def be16 (v : Nat) : Bytes := be 2 v

/-- `BE32(v)` (R7). -/
def be32 (v : Nat) : Bytes := be 4 v

/-- `BE128(v)` (R7). -/
def be128 (v : Nat) : Bytes := be 16 v

/-- `x XOR y`, byte by byte (R7). Where the lengths differ the longer string is cut, as `data XOR ks[0:ℓ]` cuts the
keystream (R82). -/
def xorBytes (x y : Bytes) : Bytes := List.zipWith (· ^^^ ·) x y

/-- `ceil(n / 16)`: the 16-byte blocks that n bytes take up (R8, R80, R82, R91). -/
def blocksOf (n : Nat) : Nat := (n + 15) / 16

/-- The four bytes of a bus word in index order: the lowest byte is bits [7:0] (R48, R49). -/
def lanes (w : Word) : Bytes :=
  [w.extractLsb' 0 8, w.extractLsb' 8 8, w.extractLsb' 16 8, w.extractLsb' 24 8]

/-- The bus word of four bytes: byte 0 in bits [7:0], byte 3 in bits [31:24] (R48, R49). -/
def wordOfLanes (b0 b1 b2 b3 : Byte) : Word := b3 ++ b2 ++ b1 ++ b0

end Sys2Proof.Machine
end

