-- ==== Sys2Proof/Machine/Aes.lean ====
section
/-! DEFINITION. The block cipher (R73 to R78): AES with a 128-bit block, encryption only, keyed with 16 or 32 bytes. -/

namespace Sys2Proof.Machine

/-- Four bytes: a column of the AES state, or a key word (R74, R78). -/
structure Col where
  b0 : Byte
  b1 : Byte
  b2 : Byte
  b3 : Byte
deriving DecidableEq, Repr

/-- A 16-byte block as the 4x4 state: column c holds s[0][c] to s[3][c] (R74). -/
structure Block where
  c0 : Col
  c1 : Col
  c2 : Col
  c3 : Col
deriving DecidableEq, Repr

/-- The zero word. -/
def Col.zero : Col := ⟨0, 0, 0, 0⟩

/-- The block of 16 zero bytes. -/
def Block.zero : Block := ⟨Col.zero, Col.zero, Col.zero, Col.zero⟩

/-- The key words of a byte string: four bytes a word (R78). -/
def colsOf (s : Bytes) : List Col :=
  match s with
  | a :: b :: c :: d :: rest => ⟨a, b, c, d⟩ :: colsOf rest
  | _ => []

/-- The 16-byte string as a block: s[r][c] = in[r + 4c] (R74). -/
def Block.ofBytes (s : Bytes) : Block :=
  let at' := fun i => s.getD i 0
  ⟨⟨at' 0, at' 1, at' 2, at' 3⟩, ⟨at' 4, at' 5, at' 6, at' 7⟩, ⟨at' 8, at' 9, at' 10, at' 11⟩,
   ⟨at' 12, at' 13, at' 14, at' 15⟩⟩

/-- The bytes of a word in order. -/
def Col.bytes (w : Col) : Bytes := [w.b0, w.b1, w.b2, w.b3]

/-- The block as a 16-byte string, stored the same way (R74). -/
def Block.bytes (s : Block) : Bytes := s.c0.bytes ++ s.c1.bytes ++ s.c2.bytes ++ s.c3.bytes

/-- Field addition on the four bytes of a word (R74). -/
def Col.xor (a b : Col) : Col := ⟨a.b0 ^^^ b.b0, a.b1 ^^^ b.b1, a.b2 ^^^ b.b2, a.b3 ^^^ b.b3⟩

/-- Field addition on the bytes of a block: AddRoundKey (R75), and the exclusive or of blocks (R80). -/
def Block.xor (a b : Block) : Block := ⟨a.c0.xor b.c0, a.c1.xor b.c1, a.c2.xor b.c2, a.c3.xor b.c3⟩

/-- `xtime(a)` (R74). -/
def xtime (a : Byte) : Byte := (a <<< 1) ^^^ (if a.getLsbD 7 then 0x1B else 0x00)

/-- The exclusive or of `xtime^i(a)` over the set bits i of b, for the low n bits of b (R74). -/
def gmulBits (n : Nat) (a b : Byte) : Byte :=
  match n with
  | 0 => 0
  | n + 1 => (if b.getLsbD 0 then a else 0) ^^^ gmulBits n (xtime a) (b >>> 1)

/-- `gmul(a, b)`: the field product (R74). -/
def gmul (a b : Byte) : Byte := gmulBits 8 a b

/-- The S-box, row x[7:4] and column x[3:0] (R76). -/
def sboxTable : List (List Byte) := [
  [0x63, 0x7c, 0x77, 0x7b, 0xf2, 0x6b, 0x6f, 0xc5, 0x30, 0x01, 0x67, 0x2b, 0xfe, 0xd7, 0xab, 0x76],
  [0xca, 0x82, 0xc9, 0x7d, 0xfa, 0x59, 0x47, 0xf0, 0xad, 0xd4, 0xa2, 0xaf, 0x9c, 0xa4, 0x72, 0xc0],
  [0xb7, 0xfd, 0x93, 0x26, 0x36, 0x3f, 0xf7, 0xcc, 0x34, 0xa5, 0xe5, 0xf1, 0x71, 0xd8, 0x31, 0x15],
  [0x04, 0xc7, 0x23, 0xc3, 0x18, 0x96, 0x05, 0x9a, 0x07, 0x12, 0x80, 0xe2, 0xeb, 0x27, 0xb2, 0x75],
  [0x09, 0x83, 0x2c, 0x1a, 0x1b, 0x6e, 0x5a, 0xa0, 0x52, 0x3b, 0xd6, 0xb3, 0x29, 0xe3, 0x2f, 0x84],
  [0x53, 0xd1, 0x00, 0xed, 0x20, 0xfc, 0xb1, 0x5b, 0x6a, 0xcb, 0xbe, 0x39, 0x4a, 0x4c, 0x58, 0xcf],
  [0xd0, 0xef, 0xaa, 0xfb, 0x43, 0x4d, 0x33, 0x85, 0x45, 0xf9, 0x02, 0x7f, 0x50, 0x3c, 0x9f, 0xa8],
  [0x51, 0xa3, 0x40, 0x8f, 0x92, 0x9d, 0x38, 0xf5, 0xbc, 0xb6, 0xda, 0x21, 0x10, 0xff, 0xf3, 0xd2],
  [0xcd, 0x0c, 0x13, 0xec, 0x5f, 0x97, 0x44, 0x17, 0xc4, 0xa7, 0x7e, 0x3d, 0x64, 0x5d, 0x19, 0x73],
  [0x60, 0x81, 0x4f, 0xdc, 0x22, 0x2a, 0x90, 0x88, 0x46, 0xee, 0xb8, 0x14, 0xde, 0x5e, 0x0b, 0xdb],
  [0xe0, 0x32, 0x3a, 0x0a, 0x49, 0x06, 0x24, 0x5c, 0xc2, 0xd3, 0xac, 0x62, 0x91, 0x95, 0xe4, 0x79],
  [0xe7, 0xc8, 0x37, 0x6d, 0x8d, 0xd5, 0x4e, 0xa9, 0x6c, 0x56, 0xf4, 0xea, 0x65, 0x7a, 0xae, 0x08],
  [0xba, 0x78, 0x25, 0x2e, 0x1c, 0xa6, 0xb4, 0xc6, 0xe8, 0xdd, 0x74, 0x1f, 0x4b, 0xbd, 0x8b, 0x8a],
  [0x70, 0x3e, 0xb5, 0x66, 0x48, 0x03, 0xf6, 0x0e, 0x61, 0x35, 0x57, 0xb9, 0x86, 0xc1, 0x1d, 0x9e],
  [0xe1, 0xf8, 0x98, 0x11, 0x69, 0xd9, 0x8e, 0x94, 0x9b, 0x1e, 0x87, 0xe9, 0xce, 0x55, 0x28, 0xdf],
  [0x8c, 0xa1, 0x89, 0x0d, 0xbf, 0xe6, 0x42, 0x68, 0x41, 0x99, 0x2d, 0x0f, 0xb0, 0x54, 0xbb, 0x16]]

/-- `SBOX[x]` (R76). -/
def sbox (x : Byte) : Byte := (sboxTable.getD (x.toNat / 16) []).getD (x.toNat % 16) 0

/-- SubWord: the S-box on each byte of a word (R78). -/
def Col.sub (w : Col) : Col := ⟨sbox w.b0, sbox w.b1, sbox w.b2, sbox w.b3⟩

/-- RotWord (R78). -/
def Col.rot (w : Col) : Col := ⟨w.b1, w.b2, w.b3, w.b0⟩

/-- SubBytes (R76). -/
def subBytes (s : Block) : Block := ⟨s.c0.sub, s.c1.sub, s.c2.sub, s.c3.sub⟩

/-- ShiftRows: row r rotates left by r positions (R77). -/
def shiftRows (s : Block) : Block :=
  ⟨⟨s.c0.b0, s.c1.b1, s.c2.b2, s.c3.b3⟩,
   ⟨s.c1.b0, s.c2.b1, s.c3.b2, s.c0.b3⟩,
   ⟨s.c2.b0, s.c3.b1, s.c0.b2, s.c1.b3⟩,
   ⟨s.c3.b0, s.c0.b1, s.c1.b2, s.c2.b3⟩⟩

/-- MixColumns on one column (R77). -/
def Col.mix (a : Col) : Col :=
  ⟨gmul a.b0 2 ^^^ gmul a.b1 3 ^^^ a.b2 ^^^ a.b3,
   a.b0 ^^^ gmul a.b1 2 ^^^ gmul a.b2 3 ^^^ a.b3,
   a.b0 ^^^ a.b1 ^^^ gmul a.b2 2 ^^^ gmul a.b3 3,
   gmul a.b0 3 ^^^ a.b1 ^^^ a.b2 ^^^ gmul a.b3 2⟩

/-- MixColumns (R77). -/
def mixColumns (s : Block) : Block := ⟨s.c0.mix, s.c1.mix, s.c2.mix, s.c3.mix⟩

/-- The loop of KeyExpansion (R78) for `left` further words, from word i on, with the round constant `rc`. `made` holds the
words so far, last first, so w[i-1] is its head and w[i-Nk] its entry Nk-1. -/
def expandFrom (nk left i : Nat) (rc : Byte) (made : List Col) : List Col :=
  match left with
  | 0 => made.reverse
  | left + 1 =>
    let t := made.headD Col.zero
    let old := made.getD (nk - 1) Col.zero
    if i % nk = 0 then
      expandFrom nk left (i + 1) (xtime rc) (old.xor (t.rot.sub.xor ⟨rc, 0, 0, 0⟩) :: made)
    else if 6 < nk ∧ i % nk = 4 then expandFrom nk left (i + 1) rc (old.xor t.sub :: made)
    else expandFrom nk left (i + 1) rc (old.xor t :: made)

/-- `KeyExpansion(K)`: 4*(Nr+1) words, with Nk = KL/4 and Nr = Nk + 6 (R78). -/
def keyExpansion (key : Bytes) : List Col :=
  let nk := key.length / 4
  expandFrom nk (4 * (nk + 7) - nk) nk 0x01 (colsOf key).reverse

/-- The round keys: words 4r to 4r+3 are round key r (R75). -/
def roundKeys (ws : List Col) : List Block :=
  match ws with
  | a :: b :: c :: d :: rest => ⟨a, b, c, d⟩ :: roundKeys rest
  | _ => []

/-- The rounds after the first AddRoundKey (R75): the last one has no MixColumns. -/
def cipherRounds (keys : List Block) (s : Block) : Block :=
  match keys with
  | [] => s
  | [last] => (shiftRows (subBytes s)).xor last
  | k :: rest => cipherRounds rest ((mixColumns (shiftRows (subBytes s))).xor k)

/-- `AES_Encrypt(K, in)` (R75), for a key of 16 or 32 bytes. -/
def aesEncrypt (key : Bytes) (input : Block) : Block :=
  match roundKeys (keyExpansion key) with
  | [] => input
  | k0 :: rest => cipherRounds rest (input.xor k0)

end Sys2Proof.Machine
end

