-- ==== Sys2Proof/Machine/Mac.lean ====
section
/-! DEFINITION. The truncated MAC (R79 to R81, R87): CMAC over AES, its 4-byte tag, and the comparison of tags. -/

namespace Sys2Proof.Machine

/-- `dbl(X)`: a left shift by one bit of the 128-bit big-endian value, with 0x87 added when the bit shifted out was 1 (R79). -/
def dbl (x : Block) : Block :=
  Block.ofBytes (be128 (((intBe x.bytes <<< 1) % 2 ^ 128) ^^^ (if x.c0.b0.getLsbD 7 then 0x87 else 0)))

/-- The subkey K1 (R79). -/
def subkey1 (key : Bytes) : Block := dbl (aesEncrypt key Block.zero)

/-- The subkey K2 (R79). -/
def subkey2 (key : Bytes) : Block := dbl (subkey1 key)

/-- `X <- AES_Encrypt(K, X XOR M_i)` over the first n blocks of the message (R80). -/
def cbcChain (key : Bytes) (n : Nat) (m : Bytes) (x : Block) : Block :=
  match n with
  | 0 => x
  | n + 1 => cbcChain key n (m.drop 16) (aesEncrypt key (x.xor (Block.ofBytes (m.take 16))))

/-- The last block of a message, whole or padded, with its subkey (R80). `n` is the number of blocks. -/
def lastBlock (key : Bytes) (n : Nat) (complete : Bool) (m : Bytes) : Block :=
  let last := slice m (16 * (n - 1)) m.length
  if complete then (Block.ofBytes last).xor (subkey1 key)
  else (Block.ofBytes (last ++ [0x80] ++ zeros (15 - last.length))).xor (subkey2 key)

/-- `CMAC(K, m)`: the full 16-byte MAC (R80), as a block. -/
def cmacBlock (key m : Bytes) : Block :=
  let n := if blocksOf m.length = 0 then 1 else blocksOf m.length
  let complete := if blocksOf m.length = 0 then false else m.length % 16 == 0
  aesEncrypt key ((cbcChain key (n - 1) m Block.zero).xor (lastBlock key n complete m))

/-- `CMAC(K, m)`: the full 16-byte MAC (R80). -/
def cmac (key m : Bytes) : Bytes := (cmacBlock key m).bytes

/-- `Tag(K, m) = CMAC(K, m)[0:4]` (R81). -/
def tagOf (key m : Bytes) : Bytes := slice (cmac key m) 0 Config.tagLen

/-- `CTEq(a, b)`: every byte is examined, and the strings are equal when no byte differs (R87). -/
def ctEq (a b : Bytes) : Bool := (xorBytes a b).foldl (· ||| ·) 0#8 == 0#8

end Sys2Proof.Machine
end

