-- ==== Sys2Proof/Machine/Kdf.lean ====
section
/-! DEFINITION. The KDF (R88 to R91): decimal contexts, labels, the fixed input and the counter-mode construction. -/

namespace Sys2Proof.Machine

/-- The decimal digits of n in front of `tail`, least significant last; `fuel` bounds the number of digits. -/
def decDigits (fuel n : Nat) (tail : Bytes) : Bytes :=
  match fuel with
  | 0 => tail
  | fuel + 1 =>
    let out := BitVec.ofNat 8 (0x30 + n % 10) :: tail
    if n / 10 = 0 then out else decDigits fuel (n / 10) out

/-- `dec(n)`: base 10, ASCII digits, most significant first, no sign and no leading zero (R88). A 32-bit number has at most
10 digits. -/
def dec (n : Nat) : Bytes := decDigits 10 n []

/-- The label "NonceKey" (R89). -/
def labelNonceKey : Bytes := [0x4e, 0x6f, 0x6e, 0x63, 0x65, 0x4b, 0x65, 0x79]

/-- The label "Nonce" (R89). -/
def labelNonce : Bytes := [0x4e, 0x6f, 0x6e, 0x63, 0x65]

/-- The label "EncryptionKey" (R89). -/
def labelEncryptionKey : Bytes := [0x45, 0x6e, 0x63, 0x72, 0x79, 0x70, 0x74, 0x69, 0x6f, 0x6e, 0x4b, 0x65, 0x79]

/-- The label "Key" (R89). -/
def labelKey : Bytes := [0x4b, 0x65, 0x79]

/-- `fixed(lab, ctx, n) = lab || 0x00 || ctx || BE32(8*n)` (R90). -/
def fixedInput (lab ctx : Bytes) (n : Nat) : Bytes := lab ++ [0x00] ++ ctx ++ be32 (8 * n)

/-- The blocks `CMAC(K, BE32(j) || F)` for `count` values of j from i on (R91). -/
def kdfBlocks (key fixed : Bytes) (count i : Nat) : Bytes :=
  match count with
  | 0 => []
  | count + 1 => cmac key (be32 i ++ fixed) ++ kdfBlocks key fixed count (i + 1)

/-- `KDF(K, lab, ctx, n)` (R91): the counter starts at 1, and the last block is cut. -/
def kdf (key lab ctx : Bytes) (n : Nat) : Bytes :=
  slice (kdfBlocks key (fixedInput lab ctx n) (blocksOf n) 1) 0 n

end Sys2Proof.Machine
end

