-- ==== Sys2Proof/Syntax.lean ====
section
/-! DEFINITION. The syntax of HUBC: its 17 commands (R60), the registers a host names (R15), one bus access
(R50, R70), and the events that reach the block from outside. -/

namespace Sys2Proof

/-- The commands of the opcode map (R60), one constructor a row. A command has no operand field: every operand is in the
operand registers, the KEY slot and BUF (R59, R72). -/
inductive Instr where
  | nop
  | cmac
  | tag
  | verify
  | ctr
  | kdf
  | kdfNum
  | ksStage1
  | ksStage2
  | ksDerive
  | parse
  | build
  | encrypt
  | decryptKnown
  | decrypt
  | findTc
  | time2tc
deriving DecidableEq, Repr

/-- The registers of the window (R15). `key i` is KEYi, `bufWord i` is BUF word i, and `reserved off` is the reserved
offset `off` (R39). -/
inductive Reg where
  | id
  | version
  | ctrl
  | status
  | cmd
  | errcode
  | evt
  | keylen
  | srcOff
  | srcLen
  | auxOff
  | auxLen
  | dstOff
  | dstLen
  | tc
  | timeLo
  | timeHi
  | seq
  | window
  | ctr0
  | resTc
  | resSeq
  | resOff
  | resLen
  | key (i : Fin 8)
  | bufWord (i : Fin 128)
  | reserved (off : Nat)
deriving DecidableEq, Repr

/-- What a host access does: a read, or a write of a value (R70). -/
inductive AccessKind where
  | read
  | write (value : Word)
deriving DecidableEq, Repr

/-- One access of the host on the register port: its width in bits, its byte offset from `BASE_ADDR`, and its kind (R50). -/
structure BusAccess where
  width : Nat
  offset : Nat
  kind : AccessKind
deriving DecidableEq, Repr

/-- What reaches the block, in the order it reaches it (R54). `access` is one host access; `engine` is the instant at which
the executing command reaches its completion (the open `LATENCY` of R6 is where this event stands among the accesses);
`resetPin level` drives the input `rst_n` (R141). -/
inductive Event where
  | access (a : BusAccess)
  | engine
  | resetPin (level : Bool)
deriving DecidableEq, Repr

end Sys2Proof
end

