-- ==== Sys2Proof/WellFormed.lean ====
section
/-! DEFINITION. Well-formed syntax: a command, a bus access (R50), and the operands of the host notation (R70, R71). -/

namespace Sys2Proof

/-- Every command is well formed: a command word has no register, immediate or length field (R59), so there is nothing in
the syntax of a command that could be out of range. -/
def Instr.wf (i : Instr) : Bool :=
  match i with
  | .nop | .cmac | .tag | .verify | .ctr | .kdf | .kdfNum | .ksStage1 | .ksStage2 | .ksDerive | .parse | .build
  | .encrypt | .decryptKnown | .decrypt | .findTc | .time2tc => true

/-- The access has the one legal width (R50). -/
def BusAccess.widthOk (a : BusAccess) : Bool := a.width == Config.busWidth

/-- The access is to an offset that is a multiple of 4 (R50). -/
def BusAccess.aligned (a : BusAccess) : Bool := a.offset % 4 == 0

/-- The access is inside the 4096-byte window, so it is HUBC's to decode (R46, R50). -/
def BusAccess.inWindow (a : BusAccess) : Bool := decide (a.offset < Config.regWindow)

/-- An access HUBC answers without a bus error (R50). -/
def BusAccess.wf (a : BusAccess) : Bool := a.widthOk && a.aligned && a.inWindow

/-- A register name of the host notation that stands for itself: the reserved offsets are those of R39, and no other. -/
def Reg.wf (r : Reg) : Bool :=
  match r with
  | .reserved off =>
    off % 4 == 0 &&
      (decide (0x060 ≤ off ∧ off ≤ 0x07C) || decide (0x0A0 ≤ off ∧ off ≤ 0x3FC) || decide (0x600 ≤ off ∧ off ≤ 0xFFC))
  | _ => true

/-- LOADKEY takes a key of 16 or 32 bytes (R71). -/
def loadKeyWf (key : Bytes) : Bool := key.length == 16 || key.length == 32

/-- LOADBUF takes an offset that is a multiple of 4, and the words it writes are words of BUF (R71). -/
def loadBufWf (off : Nat) (bytes : Bytes) : Bool :=
  off % 4 == 0 && decide (off + 4 * ((bytes.length + 3) / 4) ≤ Config.bufSize)

end Sys2Proof
end

