-- ==== Sys2Proof/Decode.lean ====
section
/-! DEFINITION. Decoding and encoding: the command word (R59 to R61) and the offsets of the register window (R15). -/

namespace Sys2Proof

/-- Why a word is illegal (R61). -/
inductive DecodeError where
  | reservedBits       -- RSVD, bits [31:8], is not 0
  | unassignedOpcode   -- OPCODE, bits [7:0], is 0x11 to 0xFF
deriving DecidableEq, Repr

/-- The field OPCODE of a command word, bits [7:0] (R59). -/
def opcodeField (w : Word) : BitVec 8 := w.extractLsb' 0 8

/-- The field RSVD of a command word, bits [31:8] (R59). -/
def rsvdField (w : Word) : BitVec 24 := w.extractLsb' 8 24

/-- The opcode map, from the number to the command (R60). -/
def instrOfOpcode (opcode : Nat) : Option Instr :=
  match opcode with
  | 0x00 => some .nop
  | 0x01 => some .cmac
  | 0x02 => some .tag
  | 0x03 => some .verify
  | 0x04 => some .ctr
  | 0x05 => some .kdf
  | 0x06 => some .kdfNum
  | 0x07 => some .ksStage1
  | 0x08 => some .ksStage2
  | 0x09 => some .ksDerive
  | 0x0A => some .parse
  | 0x0B => some .build
  | 0x0C => some .encrypt
  | 0x0D => some .decryptKnown
  | 0x0E => some .decrypt
  | 0x0F => some .findTc
  | 0x10 => some .time2tc
  | _ => none

/-- A word selects a command exactly when its RSVD is 0 and its OPCODE is in the map (R60); every other word is illegal, by
name (R61). -/
def decode (w : Word) : Except DecodeError Instr :=
  if rsvdField w = 0 then
    match instrOfOpcode (opcodeField w).toNat with
    | some i => .ok i
    | none => .error .unassignedOpcode
  else .error .reservedBits

/-- The opcode map, from the command to the number (R60). -/
def opcodeOf (i : Instr) : BitVec 8 :=
  match i with
  | .nop => 0x00
  | .cmac => 0x01
  | .tag => 0x02
  | .verify => 0x03
  | .ctr => 0x04
  | .kdf => 0x05
  | .kdfNum => 0x06
  | .ksStage1 => 0x07
  | .ksStage2 => 0x08
  | .ksDerive => 0x09
  | .parse => 0x0A
  | .build => 0x0B
  | .encrypt => 0x0C
  | .decryptKnown => 0x0D
  | .decrypt => 0x0E
  | .findTc => 0x0F
  | .time2tc => 0x10

/-- The command word of a command: RSVD of zeros above its OPCODE (R59, R60). -/
def encode (i : Instr) : Word := 0#24 ++ opcodeOf i

/-- The command word of a table row: the bits of `w` below `nbits`, every bit above them 0. -/
def tableWord (nbits w : Nat) : Word := BitVec.ofNat 32 (w % 2 ^ nbits)

/-- What the decoder reads from a table row's bits. HUBC's one format is one 32-bit word, written whole to CMD (R59), so
there are no further words and no byte order to lay them out in. -/
def decodeTableWord (nbits w : Nat) : Option Instr :=
  match decode (tableWord nbits w) with
  | .ok i => some i
  | .error _ => none

/-- The register at an offset of the window that is a multiple of 4 (R15, R39). -/
def regAt (off : Nat) : Reg :=
  if h : 0x080 ≤ off ∧ off < 0x0A0 then .key ⟨(off - 0x080) / 4, by omega⟩
  else if h : 0x400 ≤ off ∧ off < 0x600 then .bufWord ⟨(off - 0x400) / 4, by omega⟩
  else
    match off with
    | 0x000 => .id
    | 0x004 => .version
    | 0x008 => .ctrl
    | 0x00C => .status
    | 0x010 => .cmd
    | 0x014 => .errcode
    | 0x018 => .evt
    | 0x01C => .keylen
    | 0x020 => .srcOff
    | 0x024 => .srcLen
    | 0x028 => .auxOff
    | 0x02C => .auxLen
    | 0x030 => .dstOff
    | 0x034 => .dstLen
    | 0x038 => .tc
    | 0x03C => .timeLo
    | 0x040 => .timeHi
    | 0x044 => .seq
    | 0x048 => .window
    | 0x04C => .ctr0
    | 0x050 => .resTc
    | 0x054 => .resSeq
    | 0x058 => .resOff
    | 0x05C => .resLen
    | off => .reserved off

/-- The offset of a register (R15): the encoding of a name in a host program (R70). -/
def Reg.offset (r : Reg) : Nat :=
  match r with
  | .id => 0x000
  | .version => 0x004
  | .ctrl => 0x008
  | .status => 0x00C
  | .cmd => 0x010
  | .errcode => 0x014
  | .evt => 0x018
  | .keylen => 0x01C
  | .srcOff => 0x020
  | .srcLen => 0x024
  | .auxOff => 0x028
  | .auxLen => 0x02C
  | .dstOff => 0x030
  | .dstLen => 0x034
  | .tc => 0x038
  | .timeLo => 0x03C
  | .timeHi => 0x040
  | .seq => 0x044
  | .window => 0x048
  | .ctr0 => 0x04C
  | .resTc => 0x050
  | .resSeq => 0x054
  | .resOff => 0x058
  | .resLen => 0x05C
  | .key i => 0x080 + 4 * i.val
  | .bufWord i => 0x400 + 4 * i.val
  | .reserved off => off

/-- A platform address as an offset of this block's window, where it lies in the window (R46, R50). -/
def windowOffset (addr : Nat) : Option Nat :=
  if Config.baseAddr ≤ addr ∧ addr < Config.baseAddr + Config.regWindow then some (addr - Config.baseAddr) else none

end Sys2Proof
end

