-- ==== Sys2Proof/Machine/State.lean ====
section
/-! DEFINITION. The state of HUBC (R13, R15): plain data, and its value after reset (R139). -/

namespace Sys2Proof.Machine

/-- BUF (R42, R47) as the list of its bytes that differ from the reset value 0x00, addresses strictly rising
(`Memory.wf` in Ops.lean). Offsets run from 0 to 511. -/
abbrev Memory := List Host.Cell

/-- The operand registers (R23 to R34), each at the width of its field. No command writes one. -/
structure OperandRegs where
  keylen : BitVec 8
  srcOff : BitVec 16
  srcLen : BitVec 16
  auxOff : BitVec 16
  auxLen : BitVec 16
  dstOff : BitVec 16
  dstLen : BitVec 16
  tc     : Word
  timeLo : Word
  timeHi : Word
  seq    : BitVec 10
  window : BitVec 16
  ctr0   : Word
deriving DecidableEq, Repr

/-- The result registers (R35 to R38), written only by a successful commit. -/
structure ResultRegs where
  tc  : Word
  seq : BitVec 10
  off : BitVec 16
  len : BitVec 16
deriving DecidableEq, Repr

/-- The whole input of a command as it stood at the CMD write (R43, R55): the operand registers, the KEY slot and BUF. -/
structure Snapshot where
  regs : OperandRegs
  key  : Vector Word 8
  buf  : Memory
deriving DecidableEq, Repr

/-- What the register port last answered the host. `quiet`: nothing since power-on reset; `ack`: a write was taken;
`data v`: a read returned `v`; `busError`: the access got a bus error (R50). -/
inductive PortResponse where
  | quiet
  | ack
  | data (v : Word)
  | busError
deriving DecidableEq, Repr

/-- The named error codes (R122). `keyDerivationError` is reserved: no command raises it (R127). -/
inductive ErrorCode where
  | invalidKeySize
  | invalidTagLength
  | packetTooShort
  | authenticationFailure
  | decryptionFailed
  | keyDerivationError
  | illegalCommand
  | bufferRange
  | timeOutOfRange
deriving DecidableEq, Repr

/-- The machine stops with one of these. -/
inductive Fault where
  /-- The host's access got a bus error (R50): a width other than 32 bits, or an offset that is not a multiple of 4. Raised
  by a step that takes such an access. Safe: the block's state is what it was (R130), the model only ends the run
  (93_implementation_defined.md I12). -/
  | busError (width offset : Nat)
  /-- A host read found in ERRCODE a code HUBC never produces: KeyDerivationError or a reserved code (R122, R127;
  93_implementation_defined.md I4, I5). Raised by a step that reads ERRCODE. Safe: no run from reset holds such a code. -/
  | faultyErrorCode (code : BitVec 8)
deriving DecidableEq, Repr

/-- The model gives no meaning. -/
inductive Refusal where
  /-- Raised by an arm of `exec` for a command that has no meaning yet. Safe. -/
  | notModelled (mnemonic : String)
  /-- A host access while rst_n = 0: undefined, and a model refuses it (R141). Raised by a step. Safe. -/
  | accessDuringReset
  /-- A host access outside the 4096-byte window: the platform decides it (R50). Raised by a step. Safe. -/
  | outsideWindow (offset : Nat)
deriving DecidableEq, Repr

/-- The state of the block, and the model's own fields below it. ID and VERSION are constants (R16, R17), and IRQ is derived
(R131), so neither is a field. -/
structure State where
  /-- CTRL.IRQ_EN (R18). -/
  irqEn   : Bool
  /-- STATUS.BUSY (R19). -/
  busy    : Bool
  /-- STATUS.ERR (R19). -/
  err     : Bool
  /-- STATUS.MATCH (R19). -/
  matched : Bool
  /-- CMD, the word of the last command started (R20). -/
  cmd     : Word
  /-- ERRCODE.CODE (R21). -/
  errcode : BitVec 8
  /-- EVT.DONE (R22). -/
  done    : Bool
  /-- EVT.WIGN (R22). -/
  wign    : Bool
  /-- The operand registers (R23 to R34). -/
  regs    : OperandRegs
  /-- The result registers (R35 to R38). -/
  res     : ResultRegs
  /-- The KEY slot, words KEY0 to KEY7 (R40). -/
  key     : Vector Word 8
  /-- BUF (R42). -/
  buf     : Memory
  /-- The executing command's snapshot of its inputs; none while the engine is idle (R13, R44, R55). -/
  snap    : Option Snapshot
  /-- The level of the input rst_n: false while power-on reset is held (R141). -/
  rstN    : Bool
  /-- The model's own: what will reach the block, in order (R54). -/
  inputs  : List Event
  /-- The model's own: what the register port last answered. -/
  port    : PortResponse
deriving DecidableEq, Repr

/-- The operand registers after reset (R139): zero, but WINDOW, which is 2. -/
def OperandRegs.atReset : OperandRegs where
  keylen := 0
  srcOff := 0
  srcLen := 0
  auxOff := 0
  auxLen := 0
  dstOff := 0
  dstLen := 0
  tc := 0
  timeLo := 0
  timeHi := 0
  seq := 0
  window := Config.defaultWindow
  ctr0 := 0

/-- The result registers after reset (R139). -/
def ResultRegs.atReset : ResultRegs := ⟨0, 0, 0, 0⟩

/-- The machine right after reset (R139, R141): idle, rst_n back at 1, BUF and KEY zeroed, nothing on its way to the port. -/
def State.reset : State where
  irqEn := false
  busy := false
  err := false
  matched := false
  cmd := 0
  errcode := 0
  done := false
  wign := false
  regs := OperandRegs.atReset
  res := ResultRegs.atReset
  key := Vector.replicate 8 0
  buf := []
  snap := none
  rstN := true
  inputs := []
  port := .quiet

end Sys2Proof.Machine
end

