-- ==== Sys2Proof/Machine/Flags.lean ====
section
/-! DEFINITION. The flags (R45) as the words a host reads: CTRL, STATUS, ERRCODE and EVT, the IRQ output, and the effect of a
write to EVT. -/

namespace Sys2Proof.Machine

/-- A flag as the word that holds it in bit `n`. -/
def flagBit (b : Bool) (n : Nat) : Word := if b then 1#32 <<< n else 0#32

/-- CTRL as it reads: IRQ_EN in bit 0; SRST and the reserved bits read 0 (R18). -/
def State.ctrlWord (s : State) : Word := flagBit s.irqEn 0

/-- STATUS as it reads: BUSY, ERR and MATCH in bits 0, 1 and 2; the reserved bits read 0 (R19). -/
def State.statusWord (s : State) : Word := flagBit s.busy 0 ||| flagBit s.err 1 ||| flagBit s.matched 2

/-- ERRCODE as it reads: CODE in bits [7:0], 0 above (R21). -/
def State.errcodeWord (s : State) : Word := s.errcode.setWidth 32

/-- EVT as it reads: DONE and WIGN in bits 0 and 1, 0 above (R22). -/
def State.evtWord (s : State) : Word := flagBit s.done 0 ||| flagBit s.wign 1

/-- The IRQ output: EVT.DONE AND CTRL.IRQ_EN, at every instant (R131). -/
def State.irq (s : State) : Bool := s.done && s.irqEn

/-- A write of 1 clears a flag, and a write of 0 leaves it as it was (R22). -/
def clearedBy (flag written : Bool) : Bool := flag && !written

/-- The codes of the table of errors (R122). -/
def ErrorCode.code (e : ErrorCode) : BitVec 8 :=
  match e with
  | .invalidKeySize => 0x01
  | .invalidTagLength => 0x02
  | .packetTooShort => 0x03
  | .authenticationFailure => 0x04
  | .decryptionFailed => 0x05
  | .keyDerivationError => 0x06
  | .illegalCommand => 0x80
  | .bufferRange => 0x81
  | .timeOutOfRange => 0x82

/-- A code HUBC may hold in ERRCODE: 0, or a code of R122 other than the reserved KeyDerivationError (R122, R127). -/
def producible (code : BitVec 8) : Bool :=
  decide (code ∈ [0x00#8, 0x01#8, 0x02#8, 0x03#8, 0x04#8, 0x05#8, 0x80#8, 0x81#8, 0x82#8])

end Sys2Proof.Machine
end

