-- ==== Sys2Proof/Machine/Ops.lean ====
section
/-! DEFINITION. The named operations over BUF, the registers and the lifecycle: reading and writing bytes (R47), a register
read and write (R15 to R42), command start (R63, R65), commit (R68), error completion (R69), reset (R139 to R142), and one
access on the port (R50, R145). -/

namespace Sys2Proof.Machine

/-! ## BUF -/

/-- What a byte of BUF that the list does not hold reads as: the reset value (R42, R139). -/
def unlistedByte : Byte := 0x00

/-- `BUF[a]` (R47). -/
def Memory.readByte (m : Memory) (a : Nat) : Byte :=
  match m with
  | [] => unlistedByte
  | (b, v) :: rest => if a = b then v else Memory.readByte rest a

/-- `BUF[a] <- v` (R47), keeping the addresses rising and no entry equal to what an unlisted byte reads as. -/
def Memory.writeByte (m : Memory) (a : Nat) (v : Byte) : Memory :=
  match m with
  | [] => if v = unlistedByte then [] else [(a, v)]
  | (b, w) :: rest =>
    if a < b then (if v = unlistedByte then (b, w) :: rest else (a, v) :: (b, w) :: rest)
    else if a = b then (if v = unlistedByte then rest else (a, v) :: rest)
    else (b, w) :: Memory.writeByte rest a v

/-- `MemRead(off, n)` (R8, R47). -/
def Memory.read (m : Memory) (off n : Nat) : Bytes := (List.range' off n).map (Memory.readByte m)

/-- `MemWrite(off, n, s)` for the string `s` of length n (R8, R47). -/
def Memory.write (m : Memory) (off : Nat) (s : Bytes) : Memory :=
  match s with
  | [] => m
  | b :: rest => Memory.write (Memory.writeByte m off b) (off + 1) rest

/-- The addresses of the list rise strictly, and every one is above `lo` where one is given. -/
def Memory.risesFrom (lo : Option Nat) (m : Memory) : Bool :=
  match m with
  | [] => true
  | (a, _) :: rest => (match lo with | none => true | some l => decide (l < a)) && Memory.risesFrom (some a) rest

/-- The canonical form: addresses strictly rising, and no entry equal to what an unlisted address reads as. -/
def Memory.wf (m : Memory) : Bool := Memory.risesFrom none m && m.all (fun c => c.2 != unlistedByte)

/-- Every byte the list holds is a byte of BUF (R47). -/
def Memory.inRange (m : Memory) : Bool := m.all (fun c => decide (c.1 < Config.bufSize))

/-- BUF word i as the host reads it (R48). -/
def Memory.word (m : Memory) (i : Nat) : Word :=
  wordOfLanes (m.readByte (4 * i)) (m.readByte (4 * i + 1)) (m.readByte (4 * i + 2)) (m.readByte (4 * i + 3))

/-! ## The lifecycle of a command -/

/-- The inputs of a command as they stand: the operand registers, the KEY slot and BUF (R43, R55). -/
def State.liveInputs (s : State) : Snapshot := ⟨s.regs, s.key, s.buf⟩

/-- What the executing command reads: its snapshot (R55). Where the engine holds none, the inputs as they stand: R55 lets a
model read them at completion. -/
def State.operands (s : State) : Snapshot := s.snap.getD s.liveInputs

/-- Command start (R63, R65): CMD takes the word, the start actions are performed, and the inputs are snapshotted. -/
def State.startCommand (w : Word) (s : State) : State :=
  { s with
    cmd := w
    busy := true
    err := false
    matched := false
    errcode := 0
    done := false
    snap := some s.liveInputs }

/-- What a command commits (R67): the string it writes to BUF with its offset, and the registers it writes. `none` is a
register, or BUF, that the command does not write. -/
structure Commit where
  mem     : Option (Nat × Bytes) := none
  resTc   : Option Word := none
  resSeq  : Option (BitVec 10) := none
  resOff  : Option (BitVec 16) := none
  resLen  : Option (BitVec 16) := none
  matched : Option Bool := none
deriving DecidableEq, Repr

/-- The bytes of BUF after a commit (R68). -/
def Commit.applyMem (c : Commit) (m : Memory) : Memory :=
  match c.mem with
  | none => m
  | some (off, s) => m.write off s

/-- The result registers after a commit (R35 to R38, R68). -/
def Commit.applyRes (c : Commit) (r : ResultRegs) : ResultRegs :=
  ⟨c.resTc.getD r.tc, c.resSeq.getD r.seq, c.resOff.getD r.off, c.resLen.getD r.len⟩

/-- Successful completion (R68), in one indivisible step: every write of the commit, MATCH as the command sets it, BUSY to 0,
DONE to 1, and the transient state discarded (R44). ERR and ERRCODE stay. -/
def State.commit (c : Commit) (s : State) : State :=
  { s with
    buf := c.applyMem s.buf
    res := c.applyRes s.res
    matched := c.matched.getD s.matched
    busy := false
    done := true
    snap := none }

/-- Taking an error (R69, R123, R128): error completion in one indivisible step. ERRCODE takes the code, ERR and DONE are
set, BUSY is cleared, and the transient state is discarded (R44). Nothing else changes: there is no vector, no saved mode and
no stack (R128). -/
def State.raiseError (e : ErrorCode) (s : State) : State :=
  { s with
    errcode := e.code
    err := true
    busy := false
    done := true
    snap := none }

/-- One input check: whether it holds, and the error when it does not (R66). -/
structure Check where
  ok   : Bool
  code : ErrorCode
deriving DecidableEq, Repr

/-- The first check that fails decides the error (R66, R124). -/
def firstFailure (checks : List Check) : Option ErrorCode :=
  match checks with
  | [] => none
  | c :: rest => if c.ok then firstFailure rest else some c.code

/-! ## Reset -/

/-- Every piece of state of the block at its value after reset (R139); the model's own fields and the rst_n input stay. -/
def State.resetBlock (s : State) : State := { State.reset with rstN := s.rstN, inputs := s.inputs, port := s.port }

/-- Soft reset (R140), in one step, with BUSY = 0 or 1; a running command is aborted and never commits (R142). -/
def State.softReset (s : State) : State := s.resetBlock

/-- Power-on reset (R141), with rst_n at a level: the reset state, and a running command is aborted (R142). -/
def State.powerOnReset (level : Bool) (s : State) : State := { s.resetBlock with rstN := level, port := .quiet }

/-- The input rst_n is driven to a level (R141). While it is 0 the block holds the reset state; when it returns to 1 the block
is in that state, idle and ready. A level 1 that finds rst_n at 1 is no reset. -/
def State.drivePin (level : Bool) (s : State) : State := if level && s.rstN then s else s.powerOnReset level

/-! ## Registers -/

/-- The registers a host may not write while BUSY (R15, R145). -/
def busyLocked (r : Reg) : Bool :=
  match r with
  | .cmd | .keylen | .srcOff | .srcLen | .auxOff | .auxLen | .dstOff | .dstLen | .tc | .timeLo | .timeHi | .seq | .window
  | .ctr0 | .key _ | .bufWord _ => true
  | .id | .version | .ctrl | .status | .errcode | .evt | .resTc | .resSeq | .resOff | .resLen | .reserved _ => false

/-- What a read of a register returns (R16 to R42). A KEY word and a reserved offset read 0, and bits outside a field read
0. A read changes nothing (R53). -/
def State.readReg (s : State) (r : Reg) : Word :=
  match r with
  | .id => Config.idValue
  | .version => Config.versionValue
  | .ctrl => s.ctrlWord
  | .status => s.statusWord
  | .cmd => s.cmd
  | .errcode => s.errcodeWord
  | .evt => s.evtWord
  | .keylen => s.regs.keylen.setWidth 32
  | .srcOff => s.regs.srcOff.setWidth 32
  | .srcLen => s.regs.srcLen.setWidth 32
  | .auxOff => s.regs.auxOff.setWidth 32
  | .auxLen => s.regs.auxLen.setWidth 32
  | .dstOff => s.regs.dstOff.setWidth 32
  | .dstLen => s.regs.dstLen.setWidth 32
  | .tc => s.regs.tc
  | .timeLo => s.regs.timeLo
  | .timeHi => s.regs.timeHi
  | .seq => s.regs.seq.setWidth 32
  | .window => s.regs.window.setWidth 32
  | .ctr0 => s.regs.ctr0
  | .resTc => s.res.tc
  | .resSeq => s.res.seq.setWidth 32
  | .resOff => s.res.off.setWidth 32
  | .resLen => s.res.len.setWidth 32
  | .key _ => 0
  | .bufWord i => s.buf.word i.val
  | .reserved _ => 0

/-- The operand registers after a write to one of them: the field takes the low bits of the value, and the bits outside the
field are dropped (R23 to R34). A register that is no operand register leaves them as they were. -/
def OperandRegs.set (o : OperandRegs) (r : Reg) (v : Word) : OperandRegs :=
  match r with
  | .keylen => { o with keylen := v.setWidth 8 }
  | .srcOff => { o with srcOff := v.setWidth 16 }
  | .srcLen => { o with srcLen := v.setWidth 16 }
  | .auxOff => { o with auxOff := v.setWidth 16 }
  | .auxLen => { o with auxLen := v.setWidth 16 }
  | .dstOff => { o with dstOff := v.setWidth 16 }
  | .dstLen => { o with dstLen := v.setWidth 16 }
  | .tc => { o with tc := v }
  | .timeLo => { o with timeLo := v }
  | .timeHi => { o with timeHi := v }
  | .seq => { o with seq := v.setWidth 10 }
  | .window => { o with window := v.setWidth 16 }
  | .ctr0 => { o with ctr0 := v }
  | .id | .version | .ctrl | .status | .cmd | .errcode | .evt | .resTc | .resSeq | .resOff | .resLen | .key _ | .bufWord _
  | .reserved _ => o

/-- A write to CTRL (R18): bit 1 performs the soft reset whatever bit 0 is; otherwise IRQ_EN takes bit 0. -/
def State.writeCtrl (v : Word) (s : State) : State :=
  if v.getLsbD 1 then s.softReset else { s with irqEn := v.getLsbD 0 }

/-- A write to EVT (R22): a 1 in bit 0 clears DONE and a 1 in bit 1 clears WIGN. -/
def State.writeEvt (v : Word) (s : State) : State :=
  { s with done := clearedBy s.done (v.getLsbD 0), wign := clearedBy s.wign (v.getLsbD 1) }

/-- A write the BUSY lock lets through (R15 to R42). -/
def State.writeReg (r : Reg) (v : Word) (s : State) : State :=
  match r with
  | .ctrl => s.writeCtrl v
  | .cmd => s.startCommand v
  | .evt => s.writeEvt v
  | .key i => { s with key := s.key.set i.val v }
  | .bufWord i => { s with buf := s.buf.write (4 * i.val) (lanes v) }
  | .keylen | .srcOff | .srcLen | .auxOff | .auxLen | .dstOff | .dstLen | .tc | .timeLo | .timeHi | .seq | .window
  | .ctr0 => { s with regs := s.regs.set r v }
  | .id | .version | .status | .errcode | .resTc | .resSeq | .resOff | .resLen | .reserved _ => s

/-- A host write (R145): while BUSY, a write to a BUSY-locked register is discarded and sets WIGN. -/
def State.hostWrite (r : Reg) (v : Word) (s : State) : State :=
  if s.busy && busyLocked r then { s with wign := true } else s.writeReg r v

/-! ## The register port -/

/-- One access of the host, inside the window, as the block answers it (R50, R53): the answer, and the state after it. A
width other than 32 bits, or an offset that is not a multiple of 4, gets a bus error and changes no state (R50, R130). -/
def State.busCycle (a : BusAccess) (s : State) : PortResponse × State :=
  if a.widthOk && a.aligned then
    match a.kind with
    | .read => (.data (s.readReg (regAt a.offset)), s)
    | .write v => (.ack, s.hostWrite (regAt a.offset) v)
  else (.busError, s)

/-- The access is a read of ERRCODE. -/
def readsErrcode (a : BusAccess) : Bool := decide (a.kind = .read ∧ regAt a.offset = .errcode)

/-- A step in which one access of the host reaches the block. Outside the window it is the platform's (R50), and while rst_n
is 0 it is undefined (R141): both are refused by name. A bus error is a fault of the access (R50), and so is the report of an
error code HUBC never produces (R127). -/
def State.takeAccess (a : BusAccess) (s : State) : Host.Outcome State Fault Refusal :=
  if a.inWindow then
    if s.rstN then
      match s.busCycle a with
      | (.busError, _) => .fault (.busError a.width a.offset)
      | (answer, t) =>
        if readsErrcode a && !producible s.errcode then .fault (.faultyErrorCode s.errcode)
        else .next { t with port := answer }
    else .refused .accessDuringReset
  else .refused (.outsideWindow a.offset)

end Sys2Proof.Machine
end

