-- ==== Sys2Proof/Machine/Operands.lean ====
section
/-! DEFINITION. The operand forms (R62): the key, the regions, TIME, and the input checks of R124, all read from the snapshot. -/

namespace Sys2Proof.Machine

/-- An operand region: an offset in BUF and a length in bytes, on unbounded integers (R52, R72). -/
structure Region where
  off : Nat
  len : Nat
deriving DecidableEq, Repr

/-- A region is valid when `off + n <= BUF_SIZE` (R52). -/
def Region.valid (r : Region) : Bool := decide (r.off + r.len ≤ Config.bufSize)

/-- The 32 bytes of the KEY slot in index order (R40, R49). -/
def keyBytes (key : Vector Word 8) : Bytes := key.toList.flatMap lanes

/-- KL, zero-extended (R23, R72). -/
def Snapshot.kl (x : Snapshot) : Nat := x.regs.keylen.toNat

/-- `K = KEY[0:KL]` (R41). -/
def Snapshot.opKey (x : Snapshot) : Bytes := (keyBytes x.key).take x.kl

/-- SRC_LEN, zero-extended (R25, R72). -/
def Snapshot.srcLen (x : Snapshot) : Nat := x.regs.srcLen.toNat

/-- AUX_LEN, zero-extended (R27, R72). -/
def Snapshot.auxLen (x : Snapshot) : Nat := x.regs.auxLen.toNat

/-- DST_LEN, zero-extended (R29, R72). -/
def Snapshot.dstLen (x : Snapshot) : Nat := x.regs.dstLen.toNat

/-- DST_OFF, zero-extended (R28, R72). -/
def Snapshot.dstOff (x : Snapshot) : Nat := x.regs.dstOff.toNat

/-- The SRC region of a given length (R62). -/
def Snapshot.src (x : Snapshot) (len : Nat) : Region := ⟨x.regs.srcOff.toNat, len⟩

/-- The AUX region of a given length (R62). -/
def Snapshot.aux (x : Snapshot) (len : Nat) : Region := ⟨x.regs.auxOff.toNat, len⟩

/-- The DST region of a given length (R62). -/
def Snapshot.dst (x : Snapshot) (len : Nat) : Region := ⟨x.dstOff, len⟩

/-- `P = SRC_LEN - 10` when SRC_LEN >= 10, and 0 otherwise (R62): subtraction on naturals stops at 0. -/
def Snapshot.payloadLen (x : Snapshot) : Nat := x.srcLen - Config.minPacket

/-- The bytes of a region as the snapshot holds them (R55, `MemRead`). -/
def Snapshot.bytes (x : Snapshot) (r : Region) : Bytes := x.buf.read r.off r.len

/-- `BUF[SRC_OFF : SRC_OFF+SRC_LEN]` (R62). -/
def Snapshot.srcBytes (x : Snapshot) : Bytes := x.bytes (x.src x.srcLen)

/-- `TIME = sext_64(TIME_HI || TIME_LO)` (R31, R72), as an unbounded integer. -/
def Snapshot.time (x : Snapshot) : Int := (x.regs.timeHi ++ x.regs.timeLo).toInt

/-- The legal key lengths (R23, R41). -/
def Snapshot.keySizeOk (x : Snapshot) : Bool := x.kl == 16 || x.kl == 32

/-- Check 2 of R124: the key length. -/
def Snapshot.keyCheck (x : Snapshot) : Check := ⟨x.keySizeOk, .invalidKeySize⟩

/-- Check 3 of R124, for one region. -/
def Region.check (r : Region) : Check := ⟨r.valid, .bufferRange⟩

/-- Check 4 of R124 (VERIFY): the supplied tag is exactly 4 bytes. -/
def Snapshot.tagLengthCheck (x : Snapshot) : Check := ⟨x.auxLen == Config.tagLen, .invalidTagLength⟩

/-- Check 5 of R124: the packet has at least 10 bytes. -/
def Snapshot.packetCheck (x : Snapshot) : Check := ⟨decide (Config.minPacket ≤ x.srcLen), .packetTooShort⟩

end Sys2Proof.Machine
end

