-- ==== Sys2Proof/Machine/KeySchedule.lean ====
section
/-! DEFINITION. The key schedule (R95, R96, R100) and its commands KS_STAGE1 (R97), KS_STAGE2 (R98) and KS_DERIVE (R99). -/

namespace Sys2Proof.Machine

/-- What the first stage of both chains yields (R96). -/
structure Stage1Keys where
  nonceKey : Bytes
  eki      : Bytes
deriving DecidableEq, Repr

/-- What the second stage of both chains yields (R96). -/
structure Stage2Keys where
  nonce : Bytes
  ek    : Bytes
deriving DecidableEq, Repr

/-- The DerivedKeys, all four (R95). -/
structure DerivedKeys where
  nonceKey : Bytes
  nonce    : Bytes
  eki      : Bytes
  ek       : Bytes
deriving DecidableEq, Repr

/-- `Schedule(MK, T, S)` (R95); KL is the length of MK. -/
def schedule (mk : Bytes) (t : Word) (s : BitVec 10) : DerivedKeys :=
  let nonceKey := kdf mk labelNonceKey (dec t.toNat) mk.length
  let nonce := kdf nonceKey labelNonce (dec s.toNat) Config.nonceLen
  let eki := kdf mk labelEncryptionKey (dec t.toNat) mk.length
  let ek := kdf eki labelKey (dec s.toNat) mk.length
  ⟨nonceKey, nonce, eki, ek⟩

/-- `Stage1(MK, T)`: the two first-stage lines (R96). -/
def stage1 (mk : Bytes) (t : Word) : Stage1Keys :=
  ⟨kdf mk labelNonceKey (dec t.toNat) mk.length, kdf mk labelEncryptionKey (dec t.toNat) mk.length⟩

/-- `Stage2(NonceKey, EKI, S)`: the two second-stage lines (R96); KL is the length of EKI. -/
def stage2 (nonceKey eki : Bytes) (s : BitVec 10) : Stage2Keys :=
  ⟨kdf nonceKey labelNonce (dec s.toNat) Config.nonceLen, kdf eki labelKey (dec s.toNat) eki.length⟩

/-- The input checks of KS_STAGE1, in the order of R124 (R62, R97). -/
def ksStage1Checks (x : Snapshot) : List Check :=
  [x.keyCheck, (x.dst (2 * x.kl)).check]

/-- KS_STAGE1 (R97): the NonceKey, then EKI. -/
def execKsStage1 (s : State) : Host.Outcome State Fault Refusal :=
  let x := s.operands
  match firstFailure (ksStage1Checks x) with
  | some e => .next (s.raiseError e)
  | none =>
    let k := stage1 x.opKey x.regs.tc
    .next (s.commit { mem := some (x.dstOff, k.nonceKey ++ k.eki) })

/-- The input checks of KS_STAGE2, in the order of R124: SRC_LEN is ignored (R62, R98). -/
def ksStage2Checks (x : Snapshot) : List Check :=
  [x.keyCheck, (x.src (2 * x.kl)).check, (x.dst (Config.nonceLen + x.kl)).check]

/-- KS_STAGE2 (R98): the NonceKey and EKI come from BUF, and the KEY slot is not read; the Nonce, then EK. -/
def execKsStage2 (s : State) : Host.Outcome State Fault Refusal :=
  let x := s.operands
  match firstFailure (ksStage2Checks x) with
  | some e => .next (s.raiseError e)
  | none =>
    let nonceKey := x.buf.read x.regs.srcOff.toNat x.kl
    let eki := x.buf.read (x.regs.srcOff.toNat + x.kl) x.kl
    let k := stage2 nonceKey eki x.regs.seq
    .next (s.commit { mem := some (x.dstOff, k.nonce ++ k.ek) })

/-- The input checks of KS_DERIVE, in the order of R124 (R62, R99). -/
def ksDeriveChecks (x : Snapshot) : List Check :=
  [x.keyCheck, (x.dst (Config.nonceLen + x.kl)).check]

/-- KS_DERIVE (R99): the Nonce, then EK; the NonceKey and EKI are discarded. -/
def execKsDerive (s : State) : Host.Outcome State Fault Refusal :=
  let x := s.operands
  match firstFailure (ksDeriveChecks x) with
  | some e => .next (s.raiseError e)
  | none =>
    let k := schedule x.opKey x.regs.tc x.regs.seq
    .next (s.commit { mem := some (x.dstOff, k.nonce ++ k.ek) })

end Sys2Proof.Machine
end

