-- ==== Sys2Proof/Machine/PacketCodec.lean ====
section
/-! DEFINITION. The packet codec (R101 to R104) and its commands PARSE (R105) and BUILD (R106). -/

namespace Sys2Proof.Machine

/-- The ParsedPacket (R101): the fields of a packet and the packet itself. -/
structure ParsedPacket where
  seq     : BitVec 10
  tag     : Bytes
  payload : Bytes
  raw     : Bytes
deriving DecidableEq, Repr

/-- `int_be(raw[0:2]) AND 0x3FF` (R102): the upper 6 bits are discarded. -/
def packetSeq (raw : Bytes) : BitVec 10 := BitVec.ofNat 10 (intBe (slice raw 0 2) &&& Config.seqMask)

/-- The AuthTag, `raw[6:10]` (R101). -/
def packetTag (raw : Bytes) : Bytes := slice raw 6 10

/-- The EncryptedPayload, `raw[10:len(raw)]` (R101). -/
def packetPayload (raw : Bytes) : Bytes := slice raw 10 raw.length

/-- header6, `raw[0:6]`: the MAC input, taken verbatim (R103). -/
def header6 (raw : Bytes) : Bytes := slice raw 0 Config.macInputLen

/-- `Parse(raw)`; none is PacketTooShort (R101). -/
def parsePacket (raw : Bytes) : Option ParsedPacket :=
  if raw.length < Config.minPacket then none
  else some ⟨packetSeq raw, packetTag raw, packetPayload raw, raw⟩

/-- `Build(S, tag, ct) = BE16(S) || bytes(4) || tag || ct` (R104). -/
def buildPacket (s : BitVec 10) (tag ct : Bytes) : Bytes := be16 s.toNat ++ zeros 4 ++ tag ++ ct

/-- The input checks of PARSE, in the order of R124 (R62, R105). -/
def parseChecks (x : Snapshot) : List Check :=
  [(x.src x.srcLen).check, x.packetCheck]

/-- PARSE (R105): no byte is copied. -/
def execParse (s : State) : Host.Outcome State Fault Refusal :=
  let x := s.operands
  match firstFailure (parseChecks x) with
  | some e => .next (s.raiseError e)
  | none =>
    .next (s.commit {
      resSeq := some (packetSeq x.srcBytes)
      resOff := some (BitVec.ofNat 16 (x.regs.srcOff.toNat + 10))
      resLen := some (BitVec.ofNat 16 (x.srcLen - 10)) })

/-- The input checks of BUILD, in the order of R124: AUX_LEN is ignored (R62, R106). -/
def buildChecks (x : Snapshot) : List Check :=
  [(x.src x.srcLen).check, (x.aux Config.tagLen).check, (x.dst (x.srcLen + 10)).check]

/-- BUILD (R106). -/
def execBuild (s : State) : Host.Outcome State Fault Refusal :=
  let x := s.operands
  match firstFailure (buildChecks x) with
  | some e => .next (s.raiseError e)
  | none =>
    .next (s.commit {
      mem := some (x.dstOff, buildPacket x.regs.seq (x.bytes (x.aux Config.tagLen)) x.srcBytes)
      resLen := some (BitVec.ofNat 16 (x.srcLen + 10)) })

end Sys2Proof.Machine
end

