-- ==== Sys2Proof/Machine/StreamCipher.lean ====
section
/-! DEFINITION. The counter-mode stream cipher (R82). -/

namespace Sys2Proof.Machine

/-- The keystream of n blocks from the counter value c: each block is AES of the counter as one 128-bit big-endian integer,
taken modulo 2^128 (R82). -/
def keystream (key : Bytes) (n c : Nat) : Bytes :=
  match n with
  | 0 => []
  | n + 1 => (aesEncrypt key (Block.ofBytes (be128 (c % 2 ^ 128)))).bytes ++ keystream key n (c + 1)

/-- `CTR(K, cb0, data)` (R82): the data XOR the keystream, cut to the data's length. -/
def ctrCipher (key cb0 data : Bytes) : Bytes :=
  xorBytes data (keystream key (blocksOf data.length) (intBe cb0))

end Sys2Proof.Machine
end

