-- ==== Sys2Proof/Machine/DecryptionEngine.lean ====
section
/-! DEFINITION. The decryption engine (R107 to R111, R117) and its commands ENCRYPT (R112), DECRYPT_KNOWN (R113), DECRYPT
(R114), FIND_TC (R115) and TIME2TC (R116). -/

namespace Sys2Proof.Machine

/-- `Ok(pt, c, s)`: the plaintext, and the counter and sequence number that validated (R107). -/
structure Opened where
  plaintext : Bytes
  tc        : Word
  seq       : BitVec 10
deriving DecidableEq, Repr

/-- `TryDecrypt(MK, raw, c)`; none is AuthFail (R107). -/
def tryDecrypt (mk raw : Bytes) (c : Word) : Option Opened :=
  let s := packetSeq raw
  let k := schedule mk c s
  if ctEq (tagOf k.ek (header6 raw)) (packetTag raw) then
    some ⟨ctrCipher k.ek (k.nonce ++ be32 0) (packetPayload raw), c, s⟩
  else none

/-- `Day(TIME) = floor(TIME / 86400)` (R108). Division of integers by a positive number rounds toward minus infinity. -/
def dayOf (time : Int) : Int := time / Config.secondsPerDay

/-- A day that is a TimeCounter: 0 to 2^32 - 1 (R30, R109, R116). -/
def dayInRange (d : Int) : Bool := decide (0 ≤ d ∧ d ≤ Config.maxTimeCounter)

/-- The candidates from day `c` on, for `n` days: a day outside the TimeCounter range is skipped, not wrapped (R109). -/
def candidatesFrom (n : Nat) (c : Int) : List Word :=
  match n with
  | 0 => []
  | n + 1 => if dayInRange c then BitVec.ofInt 32 c :: candidatesFrom n (c + 1) else candidatesFrom n (c + 1)

/-- `Candidates(TIME, W)`: from Day(TIME) - W to Day(TIME) + W, ascending (R109). -/
def candidates (time : Int) (w : Nat) : List Word := candidatesFrom (2 * w + 1) (dayOf time - w)

/-- The first candidate of a list that authenticates (R110); none is Exhausted. -/
def searchIn (mk raw : Bytes) (cs : List Word) : Option Opened :=
  match cs with
  | [] => none
  | c :: rest =>
    match tryDecrypt mk raw c with
    | some r => some r
    | none => searchIn mk raw rest

/-- `Search(MK, raw, TIME, W)` (R110). -/
def search (mk raw : Bytes) (time : Int) (w : Nat) : Option Opened := searchIn mk raw (candidates time w)

/-- `EncryptPacket(MK, T, s, pt)` (R111): the tag covers the six bytes of the header only. -/
def encryptPacket (mk : Bytes) (t : Word) (s : BitVec 10) (pt : Bytes) : Bytes :=
  let k := schedule mk t s
  let h6 := be16 s.toNat ++ zeros 4
  buildPacket s (tagOf k.ek h6) (ctrCipher k.ek (k.nonce ++ be32 0) pt)

/-- The input checks of ENCRYPT, in the order of R124 (R62, R112). -/
def encryptChecks (x : Snapshot) : List Check :=
  [x.keyCheck, (x.src x.srcLen).check, (x.dst (x.srcLen + 10)).check]

/-- ENCRYPT (R112). -/
def execEncrypt (s : State) : Host.Outcome State Fault Refusal :=
  let x := s.operands
  match firstFailure (encryptChecks x) with
  | some e => .next (s.raiseError e)
  | none =>
    .next (s.commit {
      mem := some (x.dstOff, encryptPacket x.opKey x.regs.tc x.regs.seq x.srcBytes)
      resLen := some (BitVec.ofNat 16 (x.srcLen + 10)) })

/-- The input checks of DECRYPT_KNOWN, in the order of R124: the DST length is P (R62, R113). -/
def decryptKnownChecks (x : Snapshot) : List Check :=
  [x.keyCheck, (x.src x.srcLen).check, (x.dst x.payloadLen).check, x.packetCheck]

/-- DECRYPT_KNOWN (R113): one attempt, at TC. -/
def execDecryptKnown (s : State) : Host.Outcome State Fault Refusal :=
  let x := s.operands
  match firstFailure (decryptKnownChecks x) with
  | some e => .next (s.raiseError e)
  | none =>
    match tryDecrypt x.opKey x.srcBytes x.regs.tc with
    | none => .next (s.raiseError .authenticationFailure)
    | some r =>
      .next (s.commit {
        mem := some (x.dstOff, r.plaintext)
        resTc := some r.tc
        resSeq := some r.seq
        resLen := some (BitVec.ofNat 16 x.payloadLen)
        matched := some true })

/-- The input checks of DECRYPT, in the order of R124: the DST length is P (R62, R114). -/
def decryptChecks (x : Snapshot) : List Check :=
  [x.keyCheck, (x.src x.srcLen).check, (x.dst x.payloadLen).check, x.packetCheck]

/-- DECRYPT (R114): the windowed search. -/
def execDecrypt (s : State) : Host.Outcome State Fault Refusal :=
  let x := s.operands
  match firstFailure (decryptChecks x) with
  | some e => .next (s.raiseError e)
  | none =>
    match search x.opKey x.srcBytes x.time x.regs.window.toNat with
    | none => .next (s.raiseError .decryptionFailed)
    | some r =>
      .next (s.commit {
        mem := some (x.dstOff, r.plaintext)
        resTc := some r.tc
        resSeq := some r.seq
        resLen := some (BitVec.ofNat 16 x.payloadLen)
        matched := some true })

/-- The input checks of FIND_TC, in the order of R124 (R62, R115). -/
def findTcChecks (x : Snapshot) : List Check :=
  [x.keyCheck, (x.src x.srcLen).check, x.packetCheck]

/-- FIND_TC (R115): the search alone; the plaintext is discarded and RES_LEN is not written. -/
def execFindTc (s : State) : Host.Outcome State Fault Refusal :=
  let x := s.operands
  match firstFailure (findTcChecks x) with
  | some e => .next (s.raiseError e)
  | none =>
    match search x.opKey x.srcBytes x.time x.regs.window.toNat with
    | none => .next (s.raiseError .decryptionFailed)
    | some r =>
      .next (s.commit {
        resTc := some r.tc
        resSeq := some r.seq
        matched := some true })

/-- The input check of TIME2TC: check 6 of R124 (R116, R122). -/
def time2tcChecks (x : Snapshot) : List Check :=
  [⟨dayInRange (dayOf x.time), .timeOutOfRange⟩]

/-- TIME2TC (R116). -/
def execTime2tc (s : State) : Host.Outcome State Fault Refusal :=
  let x := s.operands
  match firstFailure (time2tcChecks x) with
  | some e => .next (s.raiseError e)
  | none => .next (s.commit { resTc := some (BitVec.ofInt 32 (dayOf x.time)) })

end Sys2Proof.Machine
end

