-- ==== Sys2Proof/Machine/KdfCommands.lean ====
section
/-! DEFINITION. The commands of the KDF engine: KDF (R93) and KDF_NUM (R94). -/

namespace Sys2Proof.Machine

/-- The input checks of KDF, in the order of R124 (R62, R93). -/
def kdfChecks (x : Snapshot) : List Check :=
  [x.keyCheck, (x.src x.srcLen).check, (x.aux x.auxLen).check, (x.dst x.dstLen).check]

/-- KDF (R93): the label at SRC, the context at AUX. -/
def execKdf (s : State) : Host.Outcome State Fault Refusal :=
  let x := s.operands
  match firstFailure (kdfChecks x) with
  | some e => .next (s.raiseError e)
  | none => .next (s.commit { mem := some (x.dstOff, kdf x.opKey x.srcBytes (x.bytes (x.aux x.auxLen)) x.dstLen) })

/-- The input checks of KDF_NUM, in the order of R124: AUX is not used (R62, R94). -/
def kdfNumChecks (x : Snapshot) : List Check :=
  [x.keyCheck, (x.src x.srcLen).check, (x.dst x.dstLen).check]

/-- KDF_NUM (R94): the context is the decimal string of TC. -/
def execKdfNum (s : State) : Host.Outcome State Fault Refusal :=
  let x := s.operands
  match firstFailure (kdfNumChecks x) with
  | some e => .next (s.raiseError e)
  | none => .next (s.commit { mem := some (x.dstOff, kdf x.opKey x.srcBytes (dec x.regs.tc.toNat) x.dstLen) })

end Sys2Proof.Machine
end

