-- ==== Sys2Proof/Machine/Primitives.lean ====
section
/-! DEFINITION. The commands of the primitives: CMAC (R83), TAG (R84), VERIFY (R85) and CTR (R86). -/

namespace Sys2Proof.Machine

/-- The input checks of CMAC, in the order of R124 (R62, R83). -/
def cmacChecks (x : Snapshot) : List Check :=
  [x.keyCheck, (x.src x.srcLen).check, (x.dst Config.macLen).check]

/-- CMAC (R83). -/
def execCmac (s : State) : Host.Outcome State Fault Refusal :=
  let x := s.operands
  match firstFailure (cmacChecks x) with
  | some e => .next (s.raiseError e)
  | none => .next (s.commit { mem := some (x.dstOff, cmac x.opKey x.srcBytes) })

/-- The input checks of TAG, in the order of R124 (R62, R84). -/
def tagChecks (x : Snapshot) : List Check :=
  [x.keyCheck, (x.src x.srcLen).check, (x.dst Config.tagLen).check]

/-- TAG (R84). -/
def execTag (s : State) : Host.Outcome State Fault Refusal :=
  let x := s.operands
  match firstFailure (tagChecks x) with
  | some e => .next (s.raiseError e)
  | none => .next (s.commit { mem := some (x.dstOff, tagOf x.opKey x.srcBytes) })

/-- The input checks of VERIFY, in the order of R124: the AUX region has the supplied length, and only then is that length
checked (R62, R85). -/
def verifyChecks (x : Snapshot) : List Check :=
  [x.keyCheck, (x.src x.srcLen).check, (x.aux x.auxLen).check, x.tagLengthCheck]

/-- VERIFY (R85): a mismatch is a success with MATCH = 0. -/
def execVerify (s : State) : Host.Outcome State Fault Refusal :=
  let x := s.operands
  match firstFailure (verifyChecks x) with
  | some e => .next (s.raiseError e)
  | none =>
    .next (s.commit { matched := some (ctEq (tagOf x.opKey x.srcBytes) (x.bytes (x.aux Config.tagLen))) })

/-- The input checks of CTR, in the order of R124: AUX_LEN is ignored, the nonce is 12 bytes (R62, R86). -/
def ctrChecks (x : Snapshot) : List Check :=
  [x.keyCheck, (x.src x.srcLen).check, (x.aux Config.nonceLen).check, (x.dst x.srcLen).check]

/-- CTR (R86). -/
def execCtr (s : State) : Host.Outcome State Fault Refusal :=
  let x := s.operands
  match firstFailure (ctrChecks x) with
  | some e => .next (s.raiseError e)
  | none =>
    .next (s.commit { mem := some (x.dstOff,
      ctrCipher x.opKey (x.bytes (x.aux Config.nonceLen) ++ be32 x.regs.ctr0.toNat) x.srcBytes) })

end Sys2Proof.Machine
end

