-- ==== Sys2Proof/Machine/System.lean ====
section
/-! DEFINITION. The system family: NOP (R119), and what an illegal command word does (R61). -/

namespace Sys2Proof.Machine

/-- NOP (R119): an empty commit; it checks neither KEYLEN nor any region. -/
def execNop (s : State) : Host.Outcome State Fault Refusal := .next (s.commit {})

/-- A command started by an illegal word completes with IllegalCommand: before any other check, reading no operand and
writing no output (R61). -/
def execIllegal (s : State) : Host.Outcome State Fault Refusal := .next (s.raiseError .illegalCommand)

end Sys2Proof.Machine
end

