-- ==== Sys2Proof/Machine/Dispatch.lean ====
section
/-! DEFINITION. One arm a command: the meaning it has. -/

namespace Sys2Proof.Machine

/-- The execution of a command (R66 to R69): validation, then its outputs, then its completion, in one indivisible step. -/
def exec (i : Instr) (s : State) : Host.Outcome State Fault Refusal :=
  match i with
  | .nop => Sys2Proof.Machine.execNop s
  | .cmac => Sys2Proof.Machine.execCmac s
  | .tag => Sys2Proof.Machine.execTag s
  | .verify => Sys2Proof.Machine.execVerify s
  | .ctr => Sys2Proof.Machine.execCtr s
  | .kdf => Sys2Proof.Machine.execKdf s
  | .kdfNum => Sys2Proof.Machine.execKdfNum s
  | .ksStage1 => Sys2Proof.Machine.execKsStage1 s
  | .ksStage2 => Sys2Proof.Machine.execKsStage2 s
  | .ksDerive => Sys2Proof.Machine.execKsDerive s
  | .parse => Sys2Proof.Machine.execParse s
  | .build => Sys2Proof.Machine.execBuild s
  | .encrypt => Sys2Proof.Machine.execEncrypt s
  | .decryptKnown => Sys2Proof.Machine.execDecryptKnown s
  | .decrypt => Sys2Proof.Machine.execDecrypt s
  | .findTc => Sys2Proof.Machine.execFindTc s
  | .time2tc => Sys2Proof.Machine.execTime2tc s

end Sys2Proof.Machine
end

