-- ==== Sys2Proof/Machine/Step.lean ====
section
/-! DEFINITION. One step of the machine: the next event that reaches the block, or the engine when none is on its way. -/

namespace Sys2Proof.Machine

/-- The engine's turn (R14, R54): the executing command runs to its completion. A legal word runs its command, an illegal one
completes with IllegalCommand (R61). With no command executing, or while rst_n = 0, nothing changes (R138, R141). -/
def engineStep (s : State) : Host.Outcome State Fault Refusal :=
  if s.rstN && s.busy then
    match decode s.cmd with
    | .ok i => exec i s
    | .error _ => execIllegal s
  else .next s

/-- One step: the event at the head of `inputs` takes effect, one at a time and in order (R54). When nothing is on its way,
the engine goes on by itself: an executing command completes (R121), and an idle block stays as it is (R138). -/
def step (s : State) : Host.Outcome State Fault Refusal :=
  match s.inputs with
  | [] => engineStep s
  | .engine :: rest => engineStep { s with inputs := rest }
  | .access a :: rest => State.takeAccess a { s with inputs := rest }
  | .resetPin level :: rest => .next (State.drivePin level { s with inputs := rest })

/-- The state in which the command of a table row's bits has just been started (R63) and the engine's turn comes next, so
that the next step runs it. HUBC fetches nothing (R57): the word stands in CMD, as the accepted CMD write leaves it. -/
def State.withFetchWord (s : State) (nbits w : Nat) : State :=
  { s.startCommand (tableWord nbits w) with rstN := true, inputs := .engine :: s.inputs }

end Sys2Proof.Machine
end

