-- ==== Sys2Proof/Machine/HostProgram.lean ====
section
/-! DEFINITION. The notation of host programs (R70) and its pseudo-instructions (R71), as the events they send to the block. -/

namespace Sys2Proof.Machine

/-- `W <name>, <value>` (R70). -/
def hostWriteOf (r : Reg) (v : Word) : Event := .access ⟨Config.busWidth, r.offset, .write v⟩

/-- `R <name>` (R70). -/
def hostReadOf (r : Reg) : Event := .access ⟨Config.busWidth, r.offset, .read⟩

/-- `CMD <MNEMONIC>` (R71). -/
def hostCommand (i : Instr) : List Event := [hostWriteOf .cmd (encode i)]

/-- `WAIT` (R71), as the accesses it makes where the command completes after `busyReads` polls: each of those reads BUSY = 1,
then comes the completion, and the last read sees BUSY = 0 and ends the loop. -/
def hostWait (busyReads : Nat) : List Event :=
  List.replicate busyReads (hostReadOf .status) ++ [.engine, hostReadOf .status]

/-- The bus word of the bytes of `s` from index i on; bytes past the end are 0x00 (R71). -/
def wordAt (s : Bytes) (i : Nat) : Word :=
  wordOfLanes (s.getD i 0) (s.getD (i + 1) 0) (s.getD (i + 2) 0) (s.getD (i + 3) 0)

/-- `LOADKEY <bytes>` for 16 or 32 bytes (R71): one write a KEY word, then KEYLEN. -/
def hostLoadKey (key : Bytes) : List Event :=
  (List.range (key.length / 4)).map (fun i => hostWriteOf (regAt (0x080 + 4 * i)) (wordAt key (4 * i)))
    ++ [hostWriteOf .keylen (BitVec.ofNat 32 key.length)]

/-- `LOADBUF <off>, <bytes>` for an offset that is a multiple of 4 (R71): one write a BUF word, the last one filled up with
0x00. -/
def hostLoadBuf (off : Nat) (s : Bytes) : List Event :=
  (List.range ((s.length + 3) / 4)).map (fun i => hostWriteOf (regAt (0x400 + off + 4 * i)) (wordAt s (4 * i)))

/-- `OPS <reg>=<v>, ...` (R71): one write a pair, in the order given. -/
def hostOps (pairs : List (Reg × Word)) : List Event := pairs.map (fun p => hostWriteOf p.1 p.2)

end Sys2Proof.Machine
end

