-- ==== Sys2Proof/Safety.lean ====
section
/-! DEFINITION. What claims are stated in: the invariant of the machine, the states a run reaches, how a command ends, and the
spec's own tables of inputs and checks. -/

namespace Sys2Proof.Machine

/-! ## The invariant -/

/-- BUF holds its canonical form, and holds bytes of BUF only (R47). -/
def State.bufOk (s : State) : Prop := s.buf.wf = true ∧ s.buf.inRange = true

/-- The snapshot is held exactly while a command executes, and it equals the inputs as they stand: nothing can change them
(R13, R55). -/
def State.snapOk (s : State) : Prop := s.snap = if s.busy then some s.liveInputs else none

/-- While a command executes, ERR, MATCH, ERRCODE and DONE read 0 (R65, R144). -/
def State.busyOk (s : State) : Prop :=
  s.busy = true → s.err = false ∧ s.matched = false ∧ s.errcode = 0 ∧ s.done = false

/-- ERR = 1 exactly when ERRCODE is not 0 (R19), and ERRCODE holds a code HUBC produces (R122, R127). -/
def State.errOk (s : State) : Prop := (s.err = true ↔ s.errcode ≠ 0) ∧ producible s.errcode = true

/-- MATCH is never set beside ERR (R68, R69). -/
def State.matchOk (s : State) : Prop := s.matched = true → s.err = false

/-- While rst_n = 0 the block holds the reset state (R141). -/
def State.resetHeld (s : State) : Prop := s.rstN = false → s = { s.resetBlock with port := .quiet }

/-- The invariant of the machine. -/
structure State.Inv (s : State) : Prop where
  buf : s.bufOk
  snap : s.snapOk
  busy : s.busyOk
  err : s.errOk
  matchFlag : s.matchOk
  held : s.resetHeld

/-- The states that runs reach: from reset, whatever is on its way to the port. -/
inductive Reachable : State → Prop where
  | reset (events : List Event) : Reachable { State.reset with inputs := events }
  | step {s t : State} : Reachable s → Machine.step s = .next t → Reachable t

/-- `n` steps of the machine. -/
def runFor (n : Nat) (s : State) : Host.Outcome State Fault Refusal := Host.Core.run Sys2Proof.core n s

/-! ## How a command ends -/

/-- A command that ended with an error code: ERRCODE, ERR, BUSY, DONE and the discarded snapshot, and nothing else. -/
def State.failedWith (s : State) (code : BitVec 8) : State :=
  { s with errcode := code, err := true, busy := false, done := true, snap := none }

/-- A command that ended well and wrote nothing: BUSY, DONE and the discarded snapshot. -/
def State.finished (s : State) : State := { s with busy := false, done := true, snap := none }

/-- `m'` is `m` with the string `bytes` stored at `off`: every stored byte reads as the string's, and every other byte reads as
it did. -/
def Wrote (m m' : Memory) (off : Nat) (bytes : Bytes) : Prop :=
  (∀ i (h : i < bytes.length), m'.readByte (off + i) = bytes[i]) ∧
  ∀ a, a < off ∨ off + bytes.length ≤ a → m'.readByte a = m.readByte a

/-- KEYLEN holds 16 or 32 (R23). -/
def KeyLegal (x : Snapshot) : Prop := x.regs.keylen = 16 ∨ x.regs.keylen = 32

/-- The region of `len` bytes at an offset register is valid (R52). -/
def Fits (off : BitVec 16) (len : Nat) : Prop := off.toNat + len ≤ 512

/-! ## The spec's tables, beside the meanings -/

/-- The "key" column of R62. -/
def usesKey (i : Instr) : Bool :=
  match i with
  | .cmac | .tag | .verify | .ctr | .kdf | .kdfNum | .ksStage1 | .ksStage2 | .ksDerive | .encrypt | .decryptKnown
  | .decrypt | .findTc => true
  | .nop | .parse | .build | .time2tc => false

/-- The region columns of R62 in the order SRC, AUX, DST: each region as its offset and its length. -/
def regionsOf (i : Instr) (r : OperandRegs) : List (Nat × Nat) :=
  let kl := r.keylen.toNat
  let src := fun n => (r.srcOff.toNat, n)
  let aux := fun n => (r.auxOff.toNat, n)
  let dst := fun n => (r.dstOff.toNat, n)
  let n := r.srcLen.toNat
  match i with
  | .nop | .time2tc => []
  | .cmac => [src n, dst 16]
  | .tag => [src n, dst 4]
  | .verify => [src n, aux r.auxLen.toNat]
  | .ctr => [src n, aux 12, dst n]
  | .kdf => [src n, aux r.auxLen.toNat, dst r.dstLen.toNat]
  | .kdfNum => [src n, dst r.dstLen.toNat]
  | .ksStage1 => [dst (2 * kl)]
  | .ksStage2 => [src (2 * kl), dst (12 + kl)]
  | .ksDerive => [dst (12 + kl)]
  | .parse => [src n]
  | .build => [src n, aux 4, dst (n + 10)]
  | .encrypt => [src n, dst (n + 10)]
  | .decryptKnown | .decrypt => [src n, dst (if 10 ≤ n then n - 10 else 0)]
  | .findTc => [src n]

/-- Checks 2 to 6 of R124 as the code they report, from the tables of R62 and R122. -/
def ruleError (i : Instr) (x : Snapshot) : Option (BitVec 8) :=
  if usesKey i = true ∧ x.regs.keylen ≠ 16 ∧ x.regs.keylen ≠ 32 then some 0x01
  else if ∃ p ∈ regionsOf i x.regs, 512 < p.1 + p.2 then some 0x81
  else if i = .verify ∧ x.regs.auxLen ≠ 4 then some 0x02
  else if (i = .parse ∨ i = .decryptKnown ∨ i = .decrypt ∨ i = .findTc) ∧ x.regs.srcLen.toNat < 10 then some 0x03
  else if i = .time2tc ∧ (x.time < 0 ∨ 371085174374400 ≤ x.time) then some 0x82
  else none

/-- The table of R125: the codes a command can report. -/
def codesOf (i : Instr) : List (BitVec 8) :=
  match i with
  | .nop => [0x00]
  | .cmac | .tag => [0x00, 0x01, 0x81]
  | .verify => [0x00, 0x01, 0x81, 0x02]
  | .ctr | .kdf | .kdfNum | .ksStage1 | .ksStage2 | .ksDerive | .encrypt => [0x00, 0x01, 0x81]
  | .parse => [0x00, 0x81, 0x03]
  | .build => [0x00, 0x81]
  | .decryptKnown => [0x00, 0x01, 0x81, 0x03, 0x04]
  | .decrypt | .findTc => [0x00, 0x01, 0x81, 0x03, 0x05]
  | .time2tc => [0x00, 0x82]

/-- The opcode map as the pairs of R60. -/
def opcodeMap : List (Nat × Instr) :=
  [(0x00, .nop), (0x01, .cmac), (0x02, .tag), (0x03, .verify), (0x04, .ctr), (0x05, .kdf), (0x06, .kdfNum),
   (0x07, .ksStage1), (0x08, .ksStage2), (0x09, .ksDerive), (0x0A, .parse), (0x0B, .build), (0x0C, .encrypt),
   (0x0D, .decryptKnown), (0x0E, .decrypt), (0x0F, .findTc), (0x10, .time2tc)]

/-- The operand registers with the bits each one keeps (R23 to R34). -/
def operandMasks : List (Reg × Word) :=
  [(.keylen, 0x000000FF), (.srcOff, 0x0000FFFF), (.srcLen, 0x0000FFFF), (.auxOff, 0x0000FFFF), (.auxLen, 0x0000FFFF),
   (.dstOff, 0x0000FFFF), (.dstLen, 0x0000FFFF), (.tc, 0xFFFFFFFF), (.timeLo, 0xFFFFFFFF), (.timeHi, 0xFFFFFFFF),
   (.seq, 0x000003FF), (.window, 0x0000FFFF), (.ctr0, 0xFFFFFFFF)]

/-- The offsets a host may not write while BUSY (R15): CMD, KEYLEN to CTR0, the KEY words and the BUF words. -/
def lockedOffset (off : Nat) : Prop :=
  off = 0x010 ∨ (0x01C ≤ off ∧ off ≤ 0x04C) ∨ (0x080 ≤ off ∧ off ≤ 0x09C) ∨ (0x400 ≤ off ∧ off ≤ 0x5FC)

/-- The reserved offsets (R39). -/
def reservedOffset (off : Nat) : Prop :=
  (0x060 ≤ off ∧ off ≤ 0x07C) ∨ (0x0A0 ≤ off ∧ off ≤ 0x3FC) ∨ (0x600 ≤ off ∧ off ≤ 0xFFC)

/-- A 32-bit write to an offset, as the event it is. -/
def writeAt (off : Nat) (v : Word) : Event := .access ⟨32, off, .write v⟩

/-- A 32-bit read of an offset, as the event it is. -/
def readAt (off : Nat) : Event := .access ⟨32, off, .read⟩

end Sys2Proof.Machine
end

