-- ==== Sys2Proof/Certificates/Slice0/Obligations.lean ====
section
/-! DEFINITION. The statements for the provers, from the numbered rules of the spec. -/

open Sys2Proof Sys2Proof.Machine

/-! ## Encoding -/

/-- R60: a word selects a command exactly when bits [31:8] are 0 and bits [7:0] stand in the opcode map. -/
def Obligations.WordSelectsExactlyTheMappedCommand : Prop :=
  ∀ (w : Word) (i : Instr), decode w = .ok i ↔ w.toNat / 256 = 0 ∧ (w.toNat % 256, i) ∈ opcodeMap

/-- Decode and encode agree (30_encoding.md section 1): every command decodes from its own word, and a word that decodes is
the word of the command it decodes to, so no bit of an encoding is dropped. -/
def Obligations.DecodeAndEncodeAgree : Prop :=
  (∀ i : Instr, i.wf = true → decode (encode i) = .ok i) ∧
  ∀ (w : Word) (i : Instr), decode w = .ok i → encode i = w

/-- Words written out from the opcode map decode to the commands it gives them, and words beside them are refused by name
(30_encoding.md section 1, 95_test_vectors.md section 10). -/
def Obligations.WordsOfTheSpecDecode : Prop :=
  decode 0x00000000#32 = .ok .nop ∧ decode 0x00000001#32 = .ok .cmac ∧ decode 0x00000005#32 = .ok .kdf ∧
  decode 0x00000009#32 = .ok .ksDerive ∧ decode 0x0000000B#32 = .ok .build ∧ decode 0x0000000E#32 = .ok .decrypt ∧
  decode 0x00000010#32 = .ok .time2tc ∧
  decode 0x00000011#32 = .error .unassignedOpcode ∧ decode 0x00000100#32 = .error .reservedBits ∧
  decode 0x00000110#32 = .error .reservedBits

/-- The register map and its offsets agree (10_state.md section 2): every offset of the window that is a multiple of 4 names
one register whose offset it is, and every register is the one at its offset. -/
def Obligations.RegisterMapAndOffsetsAgree : Prop :=
  (∀ off, off < 4096 → off % 4 = 0 → (regAt off).offset = off ∧ (regAt off).wf = true) ∧
  ∀ r : Reg, r.wf = true → regAt r.offset = r ∧ r.offset < 4096 ∧ r.offset % 4 = 0

/-! ## The lifecycle of a command -/

/-- R63 and R65: a write of any word to CMD while BUSY = 0 stores the word, performs the start actions and snapshots the
inputs, in one step, and leaves everything else as it was. -/
def Obligations.CmdWriteStartsACommand : Prop :=
  ∀ (s : State) (w : Word) (rest : List Event), s.rstN = true → s.busy = false → s.inputs = writeAt 0x010 w :: rest →
    step s = .next { s with
      inputs := rest
      port := .ack
      cmd := w
      busy := true
      err := false
      matched := false
      errcode := 0
      done := false
      snap := some ⟨s.regs, s.key, s.buf⟩ }

/-- A step runs the command that CMD holds (30_encoding.md section 3): at the engine's turn a legal word runs its command on
the state, an illegal one completes with IllegalCommand, and with no command executing the block stays as it is. That the
engine's turn also comes when nothing is on its way to the port is the model's choice (log entry 2). -/
def Obligations.StepRunsTheStartedCommand : Prop :=
  (∀ s : State, s.rstN = true → s.busy = true →
    (∀ i, decode s.cmd = .ok i →
      (s.inputs = [] → step s = exec i s) ∧
      ∀ rest, s.inputs = .engine :: rest → step s = exec i { s with inputs := rest }) ∧
    ∀ e, decode s.cmd = .error e →
      (s.inputs = [] → step s = .next (s.failedWith 0x80)) ∧
      ∀ rest, s.inputs = .engine :: rest → step s = .next ({ s with inputs := rest }.failedWith 0x80)) ∧
  ∀ s : State, s.busy = false →
    (s.inputs = [] → step s = .next s) ∧ ∀ rest, s.inputs = .engine :: rest → step s = .next { s with inputs := rest }

/-- R61: a word with an OPCODE above 0x10 or with RSVD not 0 is illegal, and every other word is a command; an illegal word
written to CMD while BUSY = 0 starts a command that completes with IllegalCommand, whatever the operands are, and writes no
output. -/
def Obligations.IllegalWordCompletesWithIllegalCommand : Prop :=
  (∀ w : Word, (∃ i, decode w = .ok i) ↔ w.toNat / 256 = 0 ∧ w.toNat % 256 ≤ 0x10) ∧
  ∀ (s : State) (w : Word) (rest : List Event), (w.toNat / 256 ≠ 0 ∨ 0x10 < w.toNat % 256) → s.rstN = true →
    s.busy = false → s.inputs = writeAt 0x010 w :: .engine :: rest →
    runFor 2 s = .next { s with
      inputs := rest
      port := .ack
      cmd := w
      busy := false
      err := true
      matched := false
      errcode := 0x80
      done := true
      snap := none }

/-- Every command completes (45_system.md, 30_encoding.md section 3): from any state it answers a next state
with BUSY = 0, DONE = 1 and no transient state, and either ERR and ERRCODE stand as they were or it reports an error. -/
def Obligations.EveryCommandCompletes : Prop :=
  ∀ (i : Instr) (s : State), ∃ t, exec i s = .next t ∧ t.busy = false ∧ t.done = true ∧ t.snap = none ∧
    ((t.err = s.err ∧ t.errcode = s.errcode) ∨ (t.err = true ∧ t.errcode ≠ 0))

/-- What no command changes: the operand registers and the KEY slot (10_state.md sections 4 and 6), and CMD, CTRL and WIGN, which
neither completion writes (10_state.md section 3, 30_encoding.md section 3); and a byte of BUF changes only inside BUF's 512
bytes (20_memory.md section 4). -/
def Obligations.NoCommandWritesOperandsOrKey : Prop :=
  ∀ (i : Instr) (s t : State), exec i s = .next t →
    t.regs = s.regs ∧ t.key = s.key ∧ t.cmd = s.cmd ∧ t.irqEn = s.irqEn ∧ t.wign = s.wign ∧ t.rstN = s.rstN ∧
    t.inputs = s.inputs ∧ t.port = s.port ∧ ∀ a, 512 ≤ a → t.buf.readByte a = s.buf.readByte a

/-- R69: an error completion writes ERRCODE, sets ERR and DONE, clears BUSY, and writes no BUF byte, no result register and no
operand register; MATCH stays 0. ERR and MATCH are 0 while a command executes, as its start left them. -/
def Obligations.ErrorCompletionWritesNothingElse : Prop :=
  ∀ (i : Instr) (s t : State), s.err = false → s.matched = false → exec i s = .next t → t.err = true →
    t.errcode ≠ 0 ∧ t.matched = false ∧ t = s.failedWith t.errcode

/-- R128: an error is precise. After an error completion the state is the state before the command started, except for STATUS,
ERRCODE, DONE, CMD, and a WIGN that discarded writes set in between; the host sees it in STATUS, in ERRCODE and on IRQ. -/
def Obligations.ErrorsArePrecise : Prop :=
  ∀ (p t : State) (w : Word) (wign : Bool), p.rstN = true → p.busy = false → p.snap = none → p.inputs = [] →
    step { p.startCommand w with wign := wign } = .next t → t.err = true →
    t.errcode ≠ 0 ∧
    t = { p with cmd := w, busy := false, err := true, matched := false, errcode := t.errcode, done := true, wign := wign } ∧
    t.readReg .status = 0x2 ∧ (t.readReg .errcode).toNat = t.errcode.toNat ∧ t.irq = p.irqEn

/-- R124: the first failing check, in the order of the rule, decides the error; where no input check fails, only
AuthenticationFailure (DECRYPT_KNOWN) and DecryptionFailed (DECRYPT, FIND_TC) are left. -/
def Obligations.FirstFailingCheckDecidesTheError : Prop :=
  (∀ (s : State) (e : DecodeError), s.rstN = true → s.busy = true → s.inputs = [] → decode s.cmd = .error e →
    step s = .next (s.failedWith 0x80)) ∧
  (∀ (i : Instr) (s : State) (c : BitVec 8), ruleError i s.operands = some c → exec i s = .next (s.failedWith c)) ∧
  ∀ (i : Instr) (s t : State), ruleError i s.operands = none → exec i s = .next t →
    (t.err = s.err ∧ t.errcode = s.errcode) ∨
    (i = .decryptKnown ∧ t = s.failedWith 0x04) ∨
    ((i = .decrypt ∨ i = .findTc) ∧ t = s.failedWith 0x05)

/-- The table of 60_exceptions.md section 2: a command reports only the codes the table lists for it, and never the reserved
KeyDerivationError. -/
def Obligations.CommandsReportOnlyTheirCodes : Prop :=
  ∀ (i : Instr) (s t : State), s.errcode = 0 → exec i s = .next t → t.errcode ∈ codesOf i ∧ t.errcode ≠ 0x06

/-! ## The register port -/

/-- R145 and R64: while BUSY, a write to CMD, KEYLEN, an operand register, a KEY word or a BUF word changes nothing but WIGN,
which it sets; CTRL and EVT take effect; a write anywhere else is ignored and sets no WIGN. All but the first of these holds with
BUSY = 0 too (10_state.md sections 3 and 5): a CTRL write with bit 1 = 0 sets IRQ_EN to bit 0, one with bit 1 = 1 resets, an EVT
write clears DONE by bit 0 and WIGN by bit 1, and a write to STATUS, ERRCODE, a result register or a reserved offset is
ignored. -/
def Obligations.WritesWhileBusy : Prop :=
  ∀ (s : State) (off : Nat) (v : Word) (rest : List Event), s.rstN = true → off < 4096 → off % 4 = 0 →
    s.inputs = writeAt off v :: rest →
    (s.busy = true → lockedOffset off → step s = .next { s with inputs := rest, port := .ack, wign := true }) ∧
    (off = 0x008 → v.getLsbD 1 = false →
      step s = .next { s with inputs := rest, port := .ack, irqEn := v.getLsbD 0 }) ∧
    (off = 0x008 → v.getLsbD 1 = true → step s = .next { State.reset with inputs := rest, port := .ack }) ∧
    (off = 0x018 → step s = .next { s with
      inputs := rest
      port := .ack
      done := s.done && !v.getLsbD 0
      wign := s.wign && !v.getLsbD 1 }) ∧
    (¬ lockedOffset off → off ≠ 0x008 → off ≠ 0x018 → step s = .next { s with inputs := rest, port := .ack })

/-- R16, R17 and R39: ID and VERSION read their constants and the reserved offsets read 0 in every state, and a write to one of
them changes nothing and sets no WIGN, with BUSY = 0 or 1. -/
def Obligations.ConstantAndReservedOffsets : Prop :=
  (∀ s : State, s.readReg (regAt 0x000) = 0x48554243 ∧ s.readReg (regAt 0x004) = 0x00000001) ∧
  (∀ (s : State) (off : Nat), reservedOffset off → s.readReg (regAt off) = 0) ∧
  ∀ (s : State) (off : Nat) (v : Word), off = 0x000 ∨ off = 0x004 ∨ reservedOffset off →
    s.hostWrite (regAt off) v = s

/-- The operand registers (10_state.md section 4): with BUSY = 0, a write stores the bits of the register's field and drops the
others, the register reads back so, and every other register of the window reads as it did. -/
def Obligations.OperandRegistersReadBackMasked : Prop :=
  ∀ (s : State) (r : Reg) (mask v : Word), (r, mask) ∈ operandMasks → s.busy = false →
    (s.hostWrite r v).readReg r = v &&& mask ∧
    (∀ r', r' ≠ r → (s.hostWrite r v).readReg r' = s.readReg r') ∧
    s.hostWrite r v = { s with regs := (s.hostWrite r v).regs }

/-- R48: BUF word i holds BUF[4i] in bits [7:0] to BUF[4i+3] in bits [31:24], in a read and in a write; a write stores those
four bytes and no other. -/
def Obligations.BufWordsAreLittleEndianLanes : Prop :=
  (∀ (s : State) (i : Nat), i < 128 → ∀ j, j < 4 →
    (s.readReg (regAt (0x400 + 4 * i))).extractLsb' (8 * j) 8 = s.buf.readByte (4 * i + j)) ∧
  (∀ (s : State) (i : Nat) (v : Word), i < 128 → s.busy = false → s.buf.wf = true →
    (∀ j, j < 4 → (s.hostWrite (regAt (0x400 + 4 * i)) v).buf.readByte (4 * i + j) = v.extractLsb' (8 * j) 8) ∧
    (∀ a, a < 4 * i ∨ 4 * i + 4 ≤ a →
      (s.hostWrite (regAt (0x400 + 4 * i)) v).buf.readByte a = s.buf.readByte a) ∧
    s.hostWrite (regAt (0x400 + 4 * i)) v = { s with buf := (s.hostWrite (regAt (0x400 + 4 * i)) v).buf }) ∧
  (State.reset.hostWrite (regAt 0x400) 0x00002A00).buf.read 0 4 = [0x00, 0x2A, 0x00, 0x00]

/-- R40 and R49: KEY word i holds KEY[4i+j] in bits [8j+7:8j]. A write with BUSY = 0 replaces the word's four bytes and nothing
else, a write with BUSY = 1 is discarded, a read returns 0 whatever the slot holds, and a reset zeroes the slot. -/
def Obligations.KeySlotIsWriteOnlyLanes : Prop :=
  (∀ (s : State) (i : Nat), i < 8 → s.readReg (regAt (0x080 + 4 * i)) = 0) ∧
  (∀ (s : State) (i : Nat) (v : Word), i < 8 → s.busy = false →
    (∀ j, j < 4 →
      (keyBytes (s.hostWrite (regAt (0x080 + 4 * i)) v).key)[4 * i + j]? = some (v.extractLsb' (8 * j) 8)) ∧
    (∀ a, a < 4 * i ∨ 4 * i + 4 ≤ a →
      (keyBytes (s.hostWrite (regAt (0x080 + 4 * i)) v).key)[a]? = (keyBytes s.key)[a]?) ∧
    s.hostWrite (regAt (0x080 + 4 * i)) v = { s with key := (s.hostWrite (regAt (0x080 + 4 * i)) v).key }) ∧
  (∀ (s : State) (i : Nat) (v : Word), i < 8 → s.busy = true →
    s.hostWrite (regAt (0x080 + 4 * i)) v = { s with wign := true }) ∧
  (∀ s : State, keyBytes s.softReset.key = zeros 32) ∧ keyBytes State.reset.key = zeros 32 ∧
  (keyBytes ((State.reset.hostWrite (regAt 0x080) 0x03020100).hostWrite (regAt 0x084) 0x07060504).key).take 8
    = [0x00, 0x01, 0x02, 0x03, 0x04, 0x05, 0x06, 0x07]

/-- Reads have no side effects (20_memory.md section 3): a read of any register by a legal access changes nothing but the
port's answer, which is the register's value, and the engine's command goes on. In every state CTRL, STATUS and EVT read each flag
in its own bit and 0 elsewhere, and every other register reads its field, zero-extended (10_state.md sections 3 to 5). -/
def Obligations.ReadsChangeNothing : Prop :=
  (∀ (s : State) (off : Nat) (rest : List Event), s.rstN = true → off < 4096 → off % 4 = 0 →
    producible s.errcode = true → s.inputs = readAt off :: rest →
    step s = .next { s with inputs := rest, port := .data (s.readReg (regAt off)) }) ∧
  (∀ s : State,
    (s.readReg .ctrl).toNat = s.irqEn.toNat ∧
    (s.readReg .status).toNat = s.busy.toNat + 2 * s.err.toNat + 4 * s.matched.toNat ∧
    (s.readReg .cmd).toNat = s.cmd.toNat ∧
    (s.readReg .errcode).toNat = s.errcode.toNat ∧
    (s.readReg .evt).toNat = s.done.toNat + 2 * s.wign.toNat) ∧
  (∀ s : State,
    (s.readReg .keylen).toNat = s.regs.keylen.toNat ∧
    (s.readReg .srcOff).toNat = s.regs.srcOff.toNat ∧ (s.readReg .srcLen).toNat = s.regs.srcLen.toNat ∧
    (s.readReg .auxOff).toNat = s.regs.auxOff.toNat ∧ (s.readReg .auxLen).toNat = s.regs.auxLen.toNat ∧
    (s.readReg .dstOff).toNat = s.regs.dstOff.toNat ∧ (s.readReg .dstLen).toNat = s.regs.dstLen.toNat ∧
    (s.readReg .tc).toNat = s.regs.tc.toNat ∧
    (s.readReg .timeLo).toNat = s.regs.timeLo.toNat ∧ (s.readReg .timeHi).toNat = s.regs.timeHi.toNat ∧
    (s.readReg .seq).toNat = s.regs.seq.toNat ∧ (s.readReg .window).toNat = s.regs.window.toNat ∧
    (s.readReg .ctr0).toNat = s.regs.ctr0.toNat) ∧
  ∀ s : State,
    (s.readReg .resTc).toNat = s.res.tc.toNat ∧ (s.readReg .resSeq).toNat = s.res.seq.toNat ∧
    (s.readReg .resOff).toNat = s.res.off.toNat ∧ (s.readReg .resLen).toNat = s.res.len.toNat

/-- The KEY slot does not leak (60_exceptions.md section 5): with no command started, two runs that differ only in what the slot
holds stop alike, or reach states that differ only in the slot, whatever the host reads and writes. -/
def Obligations.KeySlotLeaksNothingThroughThePort : Prop :=
  ∀ (n : Nat) (s : State) (k : Vector Word 8), s.busy = false → s.snap = none →
    (∀ (a : BusAccess) (v : Word), .access a ∈ s.inputs → a.kind = .write v → a.offset ≠ 0x010) →
    match runFor n s, runFor n { s with key := k } with
    | .next t, .next u => t = { u with key := t.key }
    | .fault f, .fault g => f = g
    | .refused f, .refused g => f = g
    | _, _ => False

/-- Which accesses are taken (20_memory.md section 3): an access in the window that is not 32 bits wide, or not at a multiple of 4,
gets a bus error, changes no state and is a fault of the access; a 32-bit access at a multiple of 4 gets none. An access outside
the window is not HUBC's to decode; that the model refuses it by name is the model's choice (log entry 7). -/
def Obligations.OnlyAlignedWordAccessesAreTaken : Prop :=
  (∀ (s : State) (a : BusAccess), a.width ≠ 32 ∨ a.offset % 4 ≠ 0 → s.busCycle a = (.busError, s)) ∧
  (∀ (s : State) (a : BusAccess) (rest : List Event), a.width ≠ 32 ∨ a.offset % 4 ≠ 0 → a.offset < 4096 →
    s.rstN = true → s.inputs = .access a :: rest → step s = .fault (.busError a.width a.offset)) ∧
  (∀ (s : State) (a : BusAccess), a.width = 32 → a.offset % 4 = 0 → (s.busCycle a).1 ≠ .busError) ∧
  ∀ (s : State) (a : BusAccess) (rest : List Event), 4096 ≤ a.offset → s.inputs = .access a :: rest →
    step s = .refused (.outsideWindow a.offset)

/-! ## Reset and the interrupt -/

/-- R139: what every register of the window reads after reset, and every piece of state behind it; a soft reset and a power-on
reset put the block into that one state, whatever it held. -/
def Obligations.ResetStateOfEveryRegister : Prop :=
  (∀ r : Reg, State.reset.readReg r =
    if r = .id then 0x48554243 else if r = .version then 0x00000001 else if r = .window then 0x00000002 else 0) ∧
  (∀ a, State.reset.buf.readByte a = 0x00) ∧ keyBytes State.reset.key = zeros 32 ∧ State.reset.irq = false ∧
  State.reset.snap = none ∧ State.reset.busy = false ∧ State.reset.operands.time = 0 ∧
  (∀ s : State, s.softReset = { State.reset with rstN := s.rstN, inputs := s.inputs, port := s.port }) ∧
  ∀ (s : State) (level : Bool), level = false ∨ s.rstN = false →
    s.drivePin level = { State.reset with rstN := level, inputs := s.inputs }

/-- A full reset (R139 to R142): a write to CTRL with bit 1 = 1 puts every piece of state at its reset value in one step, with
BUSY = 0 or 1 and whatever the other bits are, so a running command never commits, and SRST reads 0. A power-on reset does the
same in the step in which rst_n falls and in the step in which it rises; that these are the steps is the model's reading of R141
(log entry 4). -/
def Obligations.SoftResetIsAFullReset : Prop :=
  (∀ (s : State) (v : Word) (rest : List Event), s.rstN = true → v.getLsbD 1 = true →
    s.inputs = writeAt 0x008 v :: rest → step s = .next { State.reset with inputs := rest, port := .ack }) ∧
  (∀ (s : State) (level : Bool) (rest : List Event), level = false ∨ s.rstN = false → s.inputs = .resetPin level :: rest →
    step s = .next { State.reset with inputs := rest, rstN := level }) ∧
  ∀ s : State, (s.readReg .ctrl).getLsbD 1 = false

/-- Power-on reset (70_reset_and_hazards.md section 1): while rst_n = 0 a host access is refused and the engine does nothing;
when rst_n returns to 1 the block is in the reset state, whatever it held. A level 1 that finds rst_n at 1 is no reset (log
entry 4). -/
def Obligations.AccessesAreRefusedDuringReset : Prop :=
  (∀ (s : State) (a : BusAccess) (rest : List Event), s.rstN = false → a.offset < 4096 → s.inputs = .access a :: rest →
    step s = .refused .accessDuringReset) ∧
  (∀ (s : State) (rest : List Event), s.rstN = false → s.inputs = .engine :: rest →
    step s = .next { s with inputs := rest }) ∧
  (∀ (s : State) (rest : List Event), s.rstN = true → s.inputs = .resetPin true :: rest →
    step s = .next { s with inputs := rest }) ∧
  ∀ (s : State) (rest : List Event), s.inputs = .resetPin false :: .resetPin true :: rest →
    runFor 2 s = .next { State.reset with inputs := rest }

/-- R131: IRQ is EVT.DONE AND CTRL.IRQ_EN. Every completion raises it where it is enabled; a 1 written to EVT bit 0, a new
command, IRQ_EN = 0 and a reset lower it; WIGN does not drive it. -/
def Obligations.IrqFollowsDoneAndEnable : Prop :=
  (∀ s : State, s.irq = (s.done && s.irqEn)) ∧
  (∀ (i : Instr) (s t : State), exec i s = .next t → t.irq = s.irqEn) ∧
  (∀ (s : State) (v : Word), v.getLsbD 0 = true → (s.hostWrite .evt v).irq = false) ∧
  (∀ (s : State) (v : Word), v.getLsbD 0 = false → (s.hostWrite .evt v).irq = s.irq) ∧
  (∀ (s : State) (w : Word), s.busy = false → (s.hostWrite .cmd w).irq = false) ∧
  (∀ (s : State) (v : Word), v.getLsbD 0 = false → (s.hostWrite .ctrl v).irq = false) ∧
  (∀ (s : State) (level : Bool), s.softReset.irq = false ∧ (s.powerOnReset level).irq = false) ∧
  ∀ (s : State) (b : Bool), { s with wign := b }.irq = s.irq

/-! ## The machine as a whole -/

/-- The invariant is kept by every step: BUF stays canonical and inside its 512 bytes; the snapshot is held exactly while a
command executes and equals the inputs as they stand; while BUSY, ERR, MATCH, ERRCODE and DONE are 0; ERR = 1 exactly when
ERRCODE is not 0, and the code is one HUBC produces; MATCH is never set beside ERR; while rst_n = 0 the reset state is held. -/
def Obligations.EveryStepKeepsTheMachineInvariant : Prop :=
  ∀ s t : State, s.Inv → step s = .next t → t.Inv

/-- The invariant holds right after reset, whatever is on its way to the port. -/
def Obligations.ResetStateMeetsTheMachineInvariant : Prop :=
  ∀ events : List Event, ({ State.reset with inputs := events } : State).Inv

/-- No run from reset reports an error code that HUBC never produces (60_exceptions.md section 2). -/
def Obligations.NoRunReportsAReservedErrorCode : Prop :=
  ∀ (s : State) (c : BitVec 8), Reachable s → step s ≠ .fault (.faultyErrorCode c)

/-- How long a command takes changes nothing (45_system.md, 70_reset_and_hazards.md section 4): WAIT ends in the same state
however many polls it makes before the completion. -/
def Obligations.WaitEndsAlikeForEveryLatency : Prop :=
  ∀ (s : State) (rest : List Event) (k : Nat), s.Inv → s.rstN = true → s.busy = true →
    runFor (k + 2) { s with inputs := hostWait k ++ rest } = runFor 2 { s with inputs := hostWait 0 ++ rest } ∧
    ∃ t, runFor (k + 2) { s with inputs := hostWait k ++ rest } = .next t ∧ t.busy = false ∧ t.inputs = rest ∧
      t.port = .data t.statusWord

/-- Canonical memories that read alike are equal (20_memory.md section 1): BUF as data is nothing but the bytes it holds. -/
def Obligations.CanonicalMemoriesThatReadAlikeAreEqual : Prop :=
  ∀ m m' : Memory, m.wf = true → m'.wf = true → (∀ a, m.readByte a = m'.readByte a) → m = m'

/-! ## The primitives -/

/-- The S-box (40_primitives.md section 1): SBOX[x] is the affine image of the inverse of x in GF(2^8), and of 0 where x = 0. -/
def Obligations.SboxIsTheAffineImageOfTheInverse : Prop :=
  ∀ x : Byte, ∃ b : Byte, ((x = 0 ∧ b = 0) ∨ gmul x b = 1) ∧
    sbox x = b ^^^ b.rotateLeft 1 ^^^ b.rotateLeft 2 ^^^ b.rotateLeft 3 ^^^ b.rotateLeft 4 ^^^ 0x63

/-- R79: dbl shifts the 128-bit big-endian value left by one bit and adds 0x87 when the bit shifted out was 1; L is the
encryption of the zero block, K1 = dbl(L) and K2 = dbl(K1). -/
def Obligations.SubkeysAreDoublings : Prop :=
  (∀ x : Block, intBe (dbl x).bytes =
    (2 * intBe x.bytes) % 2 ^ 128 ^^^ (if 2 ^ 127 ≤ intBe x.bytes then 0x87 else 0)) ∧
  ∀ key : Bytes, subkey1 key = dbl (aesEncrypt key (Block.ofBytes (zeros 16))) ∧ subkey2 key = dbl (subkey1 key)

/-- R80: CMAC chains the blocks before the last one from the zero block, and encrypts the last one with K1 where the message is
a positive number of whole blocks, and padded with 0x80 and zeros with K2 where it is not. -/
def Obligations.CmacChainsTheBlocks : Prop :=
  ∀ (key m : Bytes),
    (∀ n, m.length = 16 * (n + 1) → cmac key m = (aesEncrypt key
      (((List.range n).foldl (fun x i => aesEncrypt key (x.xor (Block.ofBytes (slice m (16 * i) (16 * i + 16))))) Block.zero).xor
        ((Block.ofBytes (slice m (16 * n) (16 * n + 16))).xor (subkey1 key)))).bytes) ∧
    (m.length = 0 ∨ m.length % 16 ≠ 0 → cmac key m = (aesEncrypt key
      (((List.range (m.length / 16)).foldl
        (fun x i => aesEncrypt key (x.xor (Block.ofBytes (slice m (16 * i) (16 * i + 16))))) Block.zero).xor
        ((Block.ofBytes (slice m (16 * (m.length / 16)) m.length ++ [0x80] ++ zeros (15 - m.length % 16))).xor
          (subkey2 key)))).bytes)

/-- R82: byte j of CTR is byte j of the data XOR byte j mod 16 of AES of the counter block plus j / 16, taken modulo 2^128; the
result has the data's length; and CTR is its own inverse. -/
def Obligations.CtrXorsTheCounterKeystream : Prop :=
  (∀ (key cb0 data : Bytes), cb0.length = 16 → (ctrCipher key cb0 data).length = data.length ∧
    ∀ j (h : j < data.length), (ctrCipher key cb0 data)[j]? = some (data[j] ^^^
      (aesEncrypt key (Block.ofBytes (be128 ((intBe cb0 + j / 16) % 2 ^ 128)))).bytes.getD (j % 16) 0)) ∧
  ∀ (key cb0 data : Bytes), cb0.length = 16 → ctrCipher key cb0 (ctrCipher key cb0 data) = data

/-- Tags are equal exactly when no byte differs (40_primitives.md section 2). -/
def Obligations.TagComparisonIsEquality : Prop :=
  ∀ a b : Bytes, a.length = 4 → b.length = 4 → (ctEq a b = true ↔ a = b)

/-- R88: dec(n) is 1 to 10 ASCII digits, most significant first, whose value is n, with no leading zero but in "0" itself. -/
def Obligations.DecimalStringsAreCanonical : Prop :=
  (∀ n, n < 2 ^ 32 →
    1 ≤ (dec n).length ∧ (dec n).length ≤ 10 ∧
    (∀ d ∈ dec n, 0x30 ≤ d.toNat ∧ d.toNat ≤ 0x39) ∧
    (dec n).foldl (fun v d => 10 * v + (d.toNat - 0x30)) 0 = n ∧
    ((dec n).head? = some 0x30 → n = 0 ∧ dec n = [0x30])) ∧
  dec 0 = [0x30] ∧ dec 42 = [0x34, 0x32] ∧ dec 1023 = [0x31, 0x30, 0x32, 0x33] ∧ dec 20000 = [0x32, 0x30, 0x30, 0x30, 0x30] ∧
  dec 4294967295 = [0x34, 0x32, 0x39, 0x34, 0x39, 0x36, 0x37, 0x32, 0x39, 0x35]

/-- R91: KDF returns n bytes; byte j is byte j mod 16 of CMAC(K, BE32(j / 16 + 1) || fixed(lab, ctx, n)), so the counter starts
at 1, the last block is cut, and n = 0 gives the empty string. -/
def Obligations.KdfConcatenatesCounterBlocks : Prop :=
  ∀ (key lab ctx : Bytes) (n : Nat), (kdf key lab ctx n).length = n ∧
    ∀ j, j < n → (kdf key lab ctx n)[j]? =
      (cmac key (be32 (j / 16 + 1) ++ (lab ++ [0x00] ++ ctx ++ be32 (8 * n))))[j % 16]?

/-- R100: the Nonce is 12 bytes for both key sizes, the other derived keys have the MasterKey's length, and no command reports
KeyDerivationError. -/
def Obligations.DerivedLengthsAreFixed : Prop :=
  (∀ (mk : Bytes) (t : Word) (s : BitVec 10), mk.length = 16 ∨ mk.length = 32 →
    (schedule mk t s).nonce.length = 12 ∧ (schedule mk t s).nonceKey.length = mk.length ∧
    (schedule mk t s).eki.length = mk.length ∧ (schedule mk t s).ek.length = mk.length) ∧
  ∀ (i : Instr) (s t : State), s.errcode ≠ 0x06 → exec i s = .next t → t.errcode ≠ 0x06

/-- R95 and R96: the four derived keys are KDFs over the labels "NonceKey", "Nonce", "EncryptionKey" and "Key", written out as
bytes, and the schedule is the first stage followed by the second, for all inputs. -/
def Obligations.ScheduleSplitsIntoStages : Prop :=
  ∀ (mk : Bytes) (t : Word) (s : BitVec 10),
    (schedule mk t s).nonceKey = kdf mk [0x4e, 0x6f, 0x6e, 0x63, 0x65, 0x4b, 0x65, 0x79] (dec t.toNat) mk.length ∧
    (schedule mk t s).nonce = kdf (schedule mk t s).nonceKey [0x4e, 0x6f, 0x6e, 0x63, 0x65] (dec s.toNat) 12 ∧
    (schedule mk t s).eki =
      kdf mk [0x45, 0x6e, 0x63, 0x72, 0x79, 0x70, 0x74, 0x69, 0x6f, 0x6e, 0x4b, 0x65, 0x79] (dec t.toNat) mk.length ∧
    (schedule mk t s).ek = kdf (schedule mk t s).eki [0x4b, 0x65, 0x79] (dec s.toNat) mk.length ∧
    schedule mk t s =
      ⟨(stage1 mk t).nonceKey, (stage2 (stage1 mk t).nonceKey (stage1 mk t).eki s).nonce,
       (stage1 mk t).eki, (stage2 (stage1 mk t).nonceKey (stage1 mk t).eki s).ek⟩

/-- R104: a built packet is BE16(S), four zero bytes, the tag and the ciphertext, 10 + len(ct) bytes with the upper 6 bits 0,
and Parse gives its fields back. -/
def Obligations.ParseUndoesBuild : Prop :=
  ∀ (s : BitVec 10) (tag ct : Bytes), tag.length = 4 →
    buildPacket s tag ct =
      [BitVec.ofNat 8 (s.toNat / 256), BitVec.ofNat 8 (s.toNat % 256), 0, 0, 0, 0] ++ tag ++ ct ∧
    (buildPacket s tag ct).length = 10 + ct.length ∧
    (buildPacket s tag ct).getD 0 0 &&& 0xFC = 0 ∧
    parsePacket (buildPacket s tag ct) = some ⟨s, tag, ct, buildPacket s tag ct⟩

/-- R102: the sequence number is ((raw[0] AND 0x03) << 8) OR raw[1]; the upper 6 bits are discarded, never rejected. -/
def Obligations.SequenceNumberDropsTheUpperBits : Prop :=
  (∀ (b0 b1 : Byte) (rest : Bytes),
    (packetSeq (b0 :: b1 :: rest)).toNat = ((b0.toNat &&& 0x03) <<< 8) ||| b1.toNat) ∧
  (∀ (b0 b1 : Byte) (rest : Bytes), packetSeq (b0 :: b1 :: rest) = packetSeq ((b0 &&& 0x03) :: b1 :: rest)) ∧
  (∀ (b0 b1 : Byte) (rest : Bytes), 8 ≤ rest.length → (parsePacket (b0 :: b1 :: rest)).isSome = true) ∧
  ∀ rest : Bytes, packetSeq (0xFF :: 0xFF :: rest) = 1023#10

/-- R108 and R109: Day is the floor of TIME / 86400, so Day(-1) = -1 and Day(86399) = 0. The candidates are exactly the days
from Day(TIME) - W to Day(TIME) + W that are 32-bit unsigned values, in ascending order, at most 2W + 1 of them; there is none
exactly when the whole window lies outside that range. -/
def Obligations.CandidatesAreTheClippedWindow : Prop :=
  (∀ time : Int, 86400 * dayOf time ≤ time ∧ time < 86400 * (dayOf time + 1)) ∧ dayOf (-1) = -1 ∧ dayOf 86399 = 0 ∧
  ∀ (time : Int) (w : Nat),
    (∀ c : Word, c ∈ candidates time w ↔ dayOf time - w ≤ (c.toNat : Int) ∧ (c.toNat : Int) ≤ dayOf time + w) ∧
    (candidates time w).Pairwise (fun a b => a.toNat < b.toNat) ∧
    (candidates time w).length ≤ 2 * w + 1 ∧
    (candidates time w = [] ↔ dayOf time + w < 0 ∨ 4294967295 < dayOf time - w)

/-- R110 and R117: a search returns the result of the numerically smallest candidate that authenticates, and is exhausted
exactly when none does; it tries each of at most 2W + 1 candidates once. -/
def Obligations.SearchReturnsTheSmallestMatch : Prop :=
  ∀ (mk raw : Bytes) (time : Int) (w : Nat),
    (∀ r : Opened, search mk raw time w = some r ↔
      ∃ c ∈ candidates time w, tryDecrypt mk raw c = some r ∧
        ∀ d ∈ candidates time w, d.toNat < c.toNat → tryDecrypt mk raw d = none) ∧
    (search mk raw time w = none ↔ ∀ c ∈ candidates time w, tryDecrypt mk raw c = none) ∧
    (candidates time w).length ≤ 2 * w + 1 ∧ (candidates time w).Nodup

/-- The round trip (44_decryption_engine.md section 1): a packet that ENCRYPT makes is found and decrypted by a search whose
window holds its day, with its plaintext, counter and sequence number, unless an earlier candidate authenticates by
collision. -/
def Obligations.SearchDecryptsWhatEncryptMade : Prop :=
  ∀ (mk pt : Bytes) (t : Word) (s : BitVec 10) (time : Int) (w : Nat), mk.length = 16 ∨ mk.length = 32 →
    pt.length ≤ 502 → dayOf time - w ≤ (t.toNat : Int) → (t.toNat : Int) ≤ dayOf time + w →
    (∀ c ∈ candidates time w, c.toNat < t.toNat → tryDecrypt mk (encryptPacket mk t s pt) c = none) →
    search mk (encryptPacket mk t s pt) time w = some ⟨pt, t, s⟩

/-- The payload is not authenticated (44_decryption_engine.md section 1, 90_conflicts.md C1): two packets of one length that
agree on the first 10 bytes authenticate alike, and their plaintexts differ where their payloads differ. -/
def Obligations.PayloadIsNotAuthenticated : Prop :=
  ∀ (mk head p q : Bytes) (c : Word), head.length = 10 → p.length = q.length →
    ((tryDecrypt mk (head ++ p) c).isSome = (tryDecrypt mk (head ++ q) c).isSome) ∧
    ∀ r r', tryDecrypt mk (head ++ p) c = some r → tryDecrypt mk (head ++ q) c = some r' →
      xorBytes r.plaintext r'.plaintext = xorBytes p q ∧ r.tc = r'.tc ∧ r.seq = r'.seq

/-! ## Each command: where it completes, and with what -/

/-- NOP (45_system.md): it completes in every state, whatever the operands are, and changes nothing but BUSY and DONE. -/
def Obligations.NopCompletesAndWritesNothing : Prop :=
  ∀ s : State, exec .nop s = .next s.finished

/-- CMAC and TAG (40_primitives.md section 4): with a legal key and valid regions each completes, stores the 16-byte MAC, or
its first 4 bytes, at DST_OFF, and changes nothing else but BUSY and DONE. -/
def Obligations.CmacAndTagStoreTheMac : Prop :=
  ∀ (s : State) (x : Snapshot), x = s.operands → s.buf.wf = true → KeyLegal x → Fits x.regs.srcOff x.regs.srcLen.toNat →
    (Fits x.regs.dstOff 16 → ∃ t, exec .cmac s = .next t ∧
      Wrote s.buf t.buf x.regs.dstOff.toNat (cmac x.opKey x.srcBytes) ∧ t = { s.finished with buf := t.buf }) ∧
    (Fits x.regs.dstOff 4 → ∃ t, exec .tag s = .next t ∧
      Wrote s.buf t.buf x.regs.dstOff.toNat ((cmac x.opKey x.srcBytes).take 4) ∧ t = { s.finished with buf := t.buf })

/-- VERIFY (40_primitives.md section 4): with a legal key, valid regions and a supplied tag of 4 bytes it completes, MATCH says
whether the tag at AUX_OFF is the message's, and nothing else changes but BUSY and DONE. A mismatch is no error. -/
def Obligations.VerifySetsMatchToTagEquality : Prop :=
  ∀ (s : State) (x : Snapshot), x = s.operands → KeyLegal x → Fits x.regs.srcOff x.regs.srcLen.toNat →
    Fits x.regs.auxOff 4 → x.regs.auxLen = 4 →
    exec .verify s = .next { s.finished with
      matched := decide ((cmac x.opKey x.srcBytes).take 4 = x.buf.read x.regs.auxOff.toNat 4) }

/-- CTR (40_primitives.md section 4): with a legal key and valid regions it completes, stores the data XOR the keystream of
nonce || BE32(CTR0) at DST_OFF, and changes nothing else but BUSY and DONE. -/
def Obligations.CtrStoresTheCipheredData : Prop :=
  ∀ (s : State) (x : Snapshot), x = s.operands → s.buf.wf = true → KeyLegal x → Fits x.regs.srcOff x.regs.srcLen.toNat →
    Fits x.regs.auxOff 12 → Fits x.regs.dstOff x.regs.srcLen.toNat →
    ∃ t, exec .ctr s = .next t ∧
      Wrote s.buf t.buf x.regs.dstOff.toNat
        (ctrCipher x.opKey (x.buf.read x.regs.auxOff.toNat 12 ++ be32 x.regs.ctr0.toNat) x.srcBytes) ∧
      t = { s.finished with buf := t.buf }

/-- KDF and KDF_NUM (41_kdf.md section 3): with a legal key and valid regions each completes, stores DST_LEN derived bytes at
DST_OFF, and changes nothing else but BUSY and DONE. The context is the bytes at AUX, or the decimal string of TC. -/
def Obligations.KdfCommandsStoreDerivedBytes : Prop :=
  ∀ (s : State) (x : Snapshot), x = s.operands → s.buf.wf = true → KeyLegal x → Fits x.regs.srcOff x.regs.srcLen.toNat →
    Fits x.regs.dstOff x.regs.dstLen.toNat →
    (Fits x.regs.auxOff x.regs.auxLen.toNat → ∃ t, exec .kdf s = .next t ∧
      Wrote s.buf t.buf x.regs.dstOff.toNat
        (kdf x.opKey x.srcBytes (x.buf.read x.regs.auxOff.toNat x.regs.auxLen.toNat) x.regs.dstLen.toNat) ∧
      t = { s.finished with buf := t.buf }) ∧
    ∃ t, exec .kdfNum s = .next t ∧
      Wrote s.buf t.buf x.regs.dstOff.toNat (kdf x.opKey x.srcBytes (dec x.regs.tc.toNat) x.regs.dstLen.toNat) ∧
      t = { s.finished with buf := t.buf }

/-- KS_STAGE1 (42_key_schedule.md section 2): with a legal key and a valid region it completes, stores the NonceKey and then
EKI, KL bytes each, at DST_OFF, and changes nothing else but BUSY and DONE. The labels stand as their bytes. -/
def Obligations.KsStage1StoresTheFirstStage : Prop :=
  ∀ (s : State) (x : Snapshot), x = s.operands → s.buf.wf = true → KeyLegal x →
    Fits x.regs.dstOff (2 * x.regs.keylen.toNat) →
    ∃ t, exec .ksStage1 s = .next t ∧
      Wrote s.buf t.buf x.regs.dstOff.toNat
        (kdf x.opKey [0x4e, 0x6f, 0x6e, 0x63, 0x65, 0x4b, 0x65, 0x79] (dec x.regs.tc.toNat) x.regs.keylen.toNat ++
          kdf x.opKey [0x45, 0x6e, 0x63, 0x72, 0x79, 0x70, 0x74, 0x69, 0x6f, 0x6e, 0x4b, 0x65, 0x79] (dec x.regs.tc.toNat)
            x.regs.keylen.toNat) ∧
      t = { s.finished with buf := t.buf }

/-- KS_STAGE2 (42_key_schedule.md section 2): with a legal KEYLEN and valid regions it completes, stores the Nonce and then EK,
derived from the NonceKey and EKI at SRC_OFF, at DST_OFF, and changes nothing else but BUSY and DONE; the KEY slot is not
read. The labels stand as their bytes. -/
def Obligations.KsStage2StoresTheSecondStage : Prop :=
  ∀ (s : State) (x : Snapshot), x = s.operands → s.buf.wf = true → KeyLegal x →
    Fits x.regs.srcOff (2 * x.regs.keylen.toNat) → Fits x.regs.dstOff (12 + x.regs.keylen.toNat) →
    ∃ t, exec .ksStage2 s = .next t ∧
      Wrote s.buf t.buf x.regs.dstOff.toNat
        (kdf (x.buf.read x.regs.srcOff.toNat x.regs.keylen.toNat) [0x4e, 0x6f, 0x6e, 0x63, 0x65] (dec x.regs.seq.toNat) 12 ++
          kdf (x.buf.read (x.regs.srcOff.toNat + x.regs.keylen.toNat) x.regs.keylen.toNat) [0x4b, 0x65, 0x79]
            (dec x.regs.seq.toNat) x.regs.keylen.toNat) ∧
      t = { s.finished with buf := t.buf }

/-- KS_DERIVE (42_key_schedule.md section 2): with a legal key and a valid region it completes, stores the Nonce and then EK of
the whole schedule at DST_OFF, and changes nothing else but BUSY and DONE: the NonceKey and EKI are kept nowhere. -/
def Obligations.KsDeriveStoresTheWholeSchedule : Prop :=
  ∀ (s : State) (x : Snapshot), x = s.operands → s.buf.wf = true → KeyLegal x →
    Fits x.regs.dstOff (12 + x.regs.keylen.toNat) →
    ∃ t, exec .ksDerive s = .next t ∧
      Wrote s.buf t.buf x.regs.dstOff.toNat
        ((schedule x.opKey x.regs.tc x.regs.seq).nonce ++ (schedule x.opKey x.regs.tc x.regs.seq).ek) ∧
      t = { s.finished with buf := t.buf }

/-- The stages as commands (42_key_schedule.md section 2): KS_STAGE2 applied to what KS_STAGE1 stored leaves the state that
KS_DERIVE leaves, wherever its output goes: over what KS_STAGE1 stored, beside it or across it. -/
def Obligations.StageCommandsComposeToKsDerive : Prop :=
  ∀ (s : State), s.snap = none → s.buf.wf = true → KeyLegal s.liveInputs →
    Fits s.regs.dstOff (2 * s.regs.keylen.toNat) →
    ∃ t, exec .ksStage1 s = .next t ∧
      ∀ d : BitVec 16, Fits d (12 + s.regs.keylen.toNat) →
        ∃ u v, exec .ksStage2 { t with regs := { t.regs with srcOff := s.regs.dstOff, dstOff := d } } = .next u ∧
          exec .ksDerive { t with regs := { t.regs with srcOff := s.regs.dstOff, dstOff := d } } = .next v ∧ u = v

/-- PARSE (43_packet_codec.md section 2): with a valid region and at least 10 bytes it completes, with the masked sequence
number, the offset and the length of the payload in the result registers; it needs no key and copies no byte. -/
def Obligations.ParseLocatesThePayload : Prop :=
  ∀ (s : State) (x : Snapshot), x = s.operands → Fits x.regs.srcOff x.regs.srcLen.toNat → 10 ≤ x.regs.srcLen.toNat →
    ∃ t, exec .parse s = .next t ∧
      t.res.seq.toNat = intBe (x.buf.read x.regs.srcOff.toNat 2) % 1024 ∧
      t.res.off.toNat = x.regs.srcOff.toNat + 10 ∧ t.res.len.toNat = x.regs.srcLen.toNat - 10 ∧
      t.res.tc = s.res.tc ∧ t = { s.finished with res := t.res }

/-- BUILD and ENCRYPT (43_packet_codec.md section 2, 44_decryption_engine.md section 2): each completes under the checks of its
own row, stores the packet at DST_OFF and its length in RES_LEN, and changes nothing else but BUSY and DONE. BUILD needs no key
and neither computes nor checks the tag; ENCRYPT computes it over the 6 bytes of the header, under EK. -/
def Obligations.BuildAndEncryptStoreThePacket : Prop :=
  ∀ (s : State) (x : Snapshot), x = s.operands → s.buf.wf = true → Fits x.regs.srcOff x.regs.srcLen.toNat →
    Fits x.regs.dstOff (x.regs.srcLen.toNat + 10) →
    (Fits x.regs.auxOff 4 → ∃ t, exec .build s = .next t ∧
      Wrote s.buf t.buf x.regs.dstOff.toNat
        (be16 x.regs.seq.toNat ++ zeros 4 ++ x.buf.read x.regs.auxOff.toNat 4 ++ x.srcBytes) ∧
      t.res.len.toNat = x.regs.srcLen.toNat + 10 ∧
      t = { s.finished with buf := t.buf, res := { s.res with len := t.res.len } }) ∧
    (KeyLegal x → ∃ t, exec .encrypt s = .next t ∧
      Wrote s.buf t.buf x.regs.dstOff.toNat
        (be16 x.regs.seq.toNat ++ zeros 4 ++
          (cmac (schedule x.opKey x.regs.tc x.regs.seq).ek (be16 x.regs.seq.toNat ++ zeros 4)).take 4 ++
          ctrCipher (schedule x.opKey x.regs.tc x.regs.seq).ek ((schedule x.opKey x.regs.tc x.regs.seq).nonce ++ zeros 4)
            x.srcBytes) ∧
      t.res.len.toNat = x.regs.srcLen.toNat + 10 ∧
      t = { s.finished with buf := t.buf, res := { s.res with len := t.res.len } })

/-- DECRYPT_KNOWN (44_decryption_engine.md section 2): where its checks hold and the tag verifies at TC it completes, stores the
plaintext at DST_OFF and the counter, the sequence number and the length in the result registers, and sets MATCH; where the tag
does not verify it reports AuthenticationFailure and changes nothing else. An attempt verifies exactly when the first 4 bytes of the
MAC of raw[0:6] under EK are raw[6:10], and its plaintext is then raw[10:] ciphered under EK from the counter block
Nonce || BE32(0) (44_decryption_engine.md section 1, 43_packet_codec.md section 1). -/
def Obligations.DecryptKnownOpensThePacketAtTc : Prop :=
  (∀ (mk raw : Bytes) (c : Word), 10 ≤ raw.length →
    ((cmac (schedule mk c (packetSeq raw)).ek (raw.take 6)).take 4 = (raw.drop 6).take 4 →
      tryDecrypt mk raw c = some ⟨ctrCipher (schedule mk c (packetSeq raw)).ek
        ((schedule mk c (packetSeq raw)).nonce ++ [0x00, 0x00, 0x00, 0x00]) (raw.drop 10), c, packetSeq raw⟩) ∧
    ((cmac (schedule mk c (packetSeq raw)).ek (raw.take 6)).take 4 ≠ (raw.drop 6).take 4 → tryDecrypt mk raw c = none)) ∧
  ∀ (s : State) (x : Snapshot), x = s.operands → s.buf.wf = true → KeyLegal x → Fits x.regs.srcOff x.regs.srcLen.toNat →
    10 ≤ x.regs.srcLen.toNat → Fits x.regs.dstOff (x.regs.srcLen.toNat - 10) →
    (∀ r, tryDecrypt x.opKey x.srcBytes x.regs.tc = some r → ∃ t, exec .decryptKnown s = .next t ∧
      Wrote s.buf t.buf x.regs.dstOff.toNat r.plaintext ∧ r.plaintext.length = x.regs.srcLen.toNat - 10 ∧
      t.res.tc = x.regs.tc ∧ t.res.seq = packetSeq x.srcBytes ∧ t.res.len.toNat = x.regs.srcLen.toNat - 10 ∧
      t.res.off = s.res.off ∧ t.matched = true ∧
      t = { s.finished with buf := t.buf, res := t.res, matched := t.matched }) ∧
    (tryDecrypt x.opKey x.srcBytes x.regs.tc = none → exec .decryptKnown s = .next (s.failedWith 0x04))

/-- DECRYPT and FIND_TC (44_decryption_engine.md section 2): where their checks hold and the search finds a candidate, each
completes with the counter and the sequence number that validated and MATCH = 1; DECRYPT also stores the plaintext at DST_OFF
and its length in RES_LEN, FIND_TC writes neither. Where the search is exhausted each reports DecryptionFailed and changes
nothing else. -/
def Obligations.DecryptAndFindTcReturnTheSearch : Prop :=
  ∀ (s : State) (x : Snapshot), x = s.operands → s.buf.wf = true → KeyLegal x → Fits x.regs.srcOff x.regs.srcLen.toNat →
    10 ≤ x.regs.srcLen.toNat →
    (∀ r, search x.opKey x.srcBytes x.time x.regs.window.toNat = some r →
      (Fits x.regs.dstOff (x.regs.srcLen.toNat - 10) → ∃ t, exec .decrypt s = .next t ∧
        Wrote s.buf t.buf x.regs.dstOff.toNat r.plaintext ∧ r.plaintext.length = x.regs.srcLen.toNat - 10 ∧
        t.res.tc = r.tc ∧ t.res.seq = packetSeq x.srcBytes ∧ t.res.len.toNat = x.regs.srcLen.toNat - 10 ∧
        t.res.off = s.res.off ∧ t.matched = true ∧
        t = { s.finished with buf := t.buf, res := t.res, matched := t.matched }) ∧
      exec .findTc s = .next { s.finished with
        res := { s.res with tc := r.tc, seq := packetSeq x.srcBytes }
        matched := true }) ∧
    (search x.opKey x.srcBytes x.time x.regs.window.toNat = none →
      (Fits x.regs.dstOff (x.regs.srcLen.toNat - 10) → exec .decrypt s = .next (s.failedWith 0x05)) ∧
      exec .findTc s = .next (s.failedWith 0x05))

/-- FIND_TC followed by DECRYPT_KNOWN at the counter it found gives what DECRYPT gives (44_decryption_engine.md section 2). -/
def Obligations.FindTcThenDecryptKnownIsDecrypt : Prop :=
  ∀ (s t : State), s.snap = none → s.err = false → Fits s.regs.dstOff (s.regs.srcLen.toNat - 10) →
    exec .findTc s = .next t → t.err = false →
    ∃ u v, exec .decryptKnown { t with regs := { t.regs with tc := t.res.tc } } = .next u ∧
      exec .decrypt s = .next v ∧ u = { v with regs := { v.regs with tc := t.res.tc } }

/-- TIME2TC (44_decryption_engine.md section 2): where Day(TIME) is a 32-bit unsigned value, that is where
0 <= TIME < 371085174374400, it completes with that day in RES_TC and changes nothing else but BUSY and DONE; elsewhere it
reports TimeOutOfRange. It needs no key. -/
def Obligations.Time2tcStoresTheDay : Prop :=
  ∀ (s : State) (x : Snapshot), x = s.operands →
    (0 ≤ x.time → x.time < 371085174374400 → ∃ t, exec .time2tc s = .next t ∧
      (t.res.tc.toNat : Int) = x.time / 86400 ∧ t = { s.finished with res := { s.res with tc := t.res.tc } }) ∧
    (x.time < 0 ∨ 371085174374400 ≤ x.time → exec .time2tc s = .next (s.failedWith 0x82))
end

