-- ==== Sys2Proof/Laws/Bytes.lean ====
section
/-! SUPPORT. Byte strings: lengths, and that a bus word and its lanes determine each other. -/

namespace Sys2Proof.Machine

@[simp] theorem length_zeros (n : Nat) : (zeros n).length = n := by simp [zeros]

@[simp] theorem length_slice (s : Bytes) (a b : Nat) : (slice s a b).length = min (b - a) (s.length - a) := by
  simp [slice]

/-- A slice inside the string has the length its bounds say. -/
theorem length_slice_of_le (s : Bytes) {a b : Nat} (h : b ≤ s.length) : (slice s a b).length = b - a := by
  simp only [length_slice]
  omega

@[simp] theorem length_be (n v : Nat) : (be n v).length = n := by
  induction n with
  | zero => rfl
  | succ n ih => simp [be, ih]

@[simp] theorem length_be16 (v : Nat) : (be16 v).length = 2 := length_be 2 v

@[simp] theorem length_be32 (v : Nat) : (be32 v).length = 4 := length_be 4 v

@[simp] theorem length_be128 (v : Nat) : (be128 v).length = 16 := length_be 16 v

@[simp] theorem length_xorBytes (x y : Bytes) : (xorBytes x y).length = min x.length y.length := by simp [xorBytes]

/-- Adding the same string twice gives the first string back. -/
theorem xorBytes_self_cancel (x y : Bytes) (h : x.length ≤ y.length) : xorBytes (xorBytes x y) y = x := by
  apply List.ext_getElem
  · simp; omega
  · intro i h1 h2
    simp only [xorBytes, List.getElem_zipWith, BitVec.xor_assoc, BitVec.xor_self, BitVec.xor_zero]

@[simp] theorem length_lanes (w : Word) : (lanes w).length = 4 := rfl

/-- The word of a word's lanes is the word. -/
theorem wordOfLanes_lanes (w : Word) :
    wordOfLanes (w.extractLsb' 0 8) (w.extractLsb' 8 8) (w.extractLsb' 16 8) (w.extractLsb' 24 8) = w := by
  apply BitVec.eq_of_getLsbD_eq
  intro i hi
  simp only [wordOfLanes, BitVec.getLsbD_append, BitVec.getLsbD_extractLsb']
  split
  · simp_all
  · split
    · rename_i h1 h2
      rw [show (8 : Nat) + (i - 8) = i by omega]
      simp [h2]
    · split
      · rename_i h1 h2 h3
        rw [show (16 : Nat) + (i - 8 - 8) = i by omega]
        simp [h3]
      · rename_i h1 h2 h3
        rw [show (24 : Nat) + (i - 8 - 8 - 8) = i by omega]
        simp [show i - 8 - 8 - 8 < 8 by omega]

/-- The lanes of a word of four bytes are the bytes. -/
theorem lanes_wordOfLanes (b0 b1 b2 b3 : Byte) : lanes (wordOfLanes b0 b1 b2 b3) = [b0, b1, b2, b3] := by
  have h : ∀ (k : Nat) (b : Byte), (∀ j, j < 8 → (wordOfLanes b0 b1 b2 b3).getLsbD (k + j) = b.getLsbD j) →
      (wordOfLanes b0 b1 b2 b3).extractLsb' k 8 = b := by
    intro k b hb
    apply BitVec.eq_of_getLsbD_eq
    intro j hj
    simp [hj, hb j hj]
  simp only [lanes]
  rw [h 0 b0, h 8 b1, h 16 b2, h 24 b3]
  all_goals
    intro j hj
    simp only [wordOfLanes, BitVec.getLsbD_append]
  · rw [if_neg (by omega), if_neg (by omega), if_neg (by omega)]
    congr 1
    omega
  · rw [if_neg (by omega), if_neg (by omega), if_pos (by omega)]
    congr 1
    omega
  · rw [if_neg (by omega), if_pos (by omega)]
    congr 1
    omega
  · rw [if_pos (by omega)]
    congr 1
    omega

end Sys2Proof.Machine
end

