-- ==== Sys2Proof/Laws/Crypto.lean ====
section
/-! SUPPORT. The primitives: the length of what each one returns (R80 to R82, R91, R100). -/

namespace Sys2Proof.Machine

@[simp] theorem length_block_bytes (b : Block) : b.bytes.length = 16 := rfl

/-- A block is the block of its own bytes (R74). -/
@[simp] theorem ofBytes_bytes (b : Block) : Block.ofBytes b.bytes = b := rfl

@[simp] theorem length_cmac (key m : Bytes) : (cmac key m).length = 16 := rfl

@[simp] theorem length_tagOf (key m : Bytes) : (tagOf key m).length = Config.tagLen := by
  simp only [tagOf, length_slice, length_cmac]
  rfl

/-- The blocks cover the bytes. -/
theorem le_blocksOf (n : Nat) : n ≤ 16 * blocksOf n := by
  simp only [blocksOf]
  omega

@[simp] theorem length_keystream (key : Bytes) (n c : Nat) : (keystream key n c).length = 16 * n := by
  induction n generalizing c with
  | zero => rfl
  | succ n ih =>
    simp only [keystream, List.length_append, length_block_bytes, ih]
    omega

@[simp] theorem length_ctrCipher (key cb0 data : Bytes) : (ctrCipher key cb0 data).length = data.length := by
  simp only [ctrCipher, length_xorBytes, length_keystream]
  have := le_blocksOf data.length
  omega

@[simp] theorem length_kdfBlocks (key fixed : Bytes) (count i : Nat) :
    (kdfBlocks key fixed count i).length = 16 * count := by
  induction count generalizing i with
  | zero => rfl
  | succ n ih =>
    simp only [kdfBlocks, List.length_append, length_cmac, ih]
    omega

@[simp] theorem length_kdf (key lab ctx : Bytes) (n : Nat) : (kdf key lab ctx n).length = n := by
  simp only [kdf, length_slice, length_kdfBlocks]
  have := le_blocksOf n
  omega

/-- The 32 bytes of the KEY slot. -/
@[simp] theorem length_keyBytes (key : Vector Word 8) : (keyBytes key).length = 32 := by
  simp only [keyBytes, List.length_flatMap, length_lanes, List.map_const', List.sum_replicate_nat]
  simp

/-- The key a command uses has the length KEYLEN gives, up to the 32 bytes of the slot. -/
theorem length_opKey (x : Snapshot) (h : x.kl ≤ 32) : x.opKey.length = x.kl := by
  simp only [Snapshot.opKey, List.length_take, length_keyBytes]
  omega

/-- A legal key length is 16 or 32. -/
theorem Snapshot.kl_of_keySizeOk {x : Snapshot} (h : x.keySizeOk = true) : x.kl = 16 ∨ x.kl = 32 := by
  simpa [Snapshot.keySizeOk] using h

/-- A key of a legal length has that length. -/
theorem length_opKey_of_keySizeOk {x : Snapshot} (h : x.keySizeOk = true) : x.opKey.length = x.kl :=
  length_opKey x (by have := Snapshot.kl_of_keySizeOk h; omega)

end Sys2Proof.Machine
end

