-- ==== Sys2Proof/Laws/Memory.lean ====
section
/-! SUPPORT. BUF: a read after a write, what a write leaves alone, and that every write keeps the canonical form. -/

namespace Sys2Proof.Machine

@[simp] theorem Memory.readByte_nil (a : Nat) : Memory.readByte [] a = unlistedByte := rfl

@[simp] theorem Memory.write_nil (m : Memory) (off : Nat) : Memory.write m off [] = m := rfl

@[simp] theorem Memory.write_cons (m : Memory) (off : Nat) (b : Byte) (rest : Bytes) :
    Memory.write m off (b :: rest) = Memory.write (Memory.writeByte m off b) (off + 1) rest := rfl

/-- A list that rises from `lo` holds no address up to `lo`. -/
theorem Memory.readByte_of_risesFrom {m : Memory} {lo a : Nat} (h : Memory.risesFrom (some lo) m = true) (ha : a ≤ lo) :
    Memory.readByte m a = unlistedByte := by
  induction m generalizing lo with
  | nil => rfl
  | cons c rest ih =>
    obtain ⟨b, v⟩ := c
    simp only [Memory.risesFrom, Bool.and_eq_true, decide_eq_true_eq] at h
    simp only [Memory.readByte]
    rw [if_neg (by omega)]
    exact ih h.2 (by omega)

/-- A list may be said to rise from any lower bound below its own. -/
theorem Memory.risesFrom_mono {m : Memory} {lo lo' : Nat} (h : Memory.risesFrom (some lo) m = true) (hl : lo' ≤ lo) :
    Memory.risesFrom (some lo') m = true := by
  cases m with
  | nil => rfl
  | cons c rest =>
    obtain ⟨b, v⟩ := c
    simp only [Memory.risesFrom, Bool.and_eq_true, decide_eq_true_eq] at h ⊢
    exact ⟨by omega, h.2⟩

/-- A list that rises from a bound rises. -/
theorem Memory.risesFrom_none {m : Memory} {lo : Nat} (h : Memory.risesFrom (some lo) m = true) :
    Memory.risesFrom none m = true := by
  cases m with
  | nil => rfl
  | cons c rest =>
    simp only [Memory.risesFrom, Bool.and_eq_true, Bool.true_and] at h ⊢
    exact h.2

/-- A write of one byte leaves every other byte as it was. -/
theorem Memory.readByte_writeByte_of_ne (m : Memory) {a b : Nat} (v : Byte) (h : b ≠ a) :
    Memory.readByte (Memory.writeByte m a v) b = Memory.readByte m b := by
  induction m with
  | nil =>
    simp only [Memory.writeByte]
    split <;> simp [Memory.readByte, h]
  | cons c rest ih =>
    obtain ⟨d, w⟩ := c
    simp only [Memory.writeByte]
    split
    · split <;> simp [Memory.readByte, h]
    · split
      · rename_i had
        subst had
        split <;> simp [Memory.readByte, h]
      · simp only [Memory.readByte, ih]

/-- A byte reads as what was last written to it, where the addresses rise. -/
theorem Memory.readByte_writeByte_self_of_rises {m : Memory} (a : Nat) (v : Byte) (h : Memory.risesFrom none m = true) :
    Memory.readByte (Memory.writeByte m a v) a = v := by
  induction m with
  | nil =>
    simp only [Memory.writeByte]
    split <;> simp_all [Memory.readByte]
  | cons c rest ih =>
    obtain ⟨d, w⟩ := c
    have hr : Memory.risesFrom (some d) rest = true := by
      simpa [Memory.risesFrom] using h
    simp only [Memory.writeByte]
    split
    · rename_i hlt
      split
      · rename_i hv
        simp only [Memory.readByte, if_neg (show a ≠ d by omega), hv]
        exact Memory.readByte_of_risesFrom hr (by omega)
      · simp [Memory.readByte]
    · split
      · rename_i had
        subst had
        split
        · rename_i hv
          rw [hv]
          exact Memory.readByte_of_risesFrom hr (Nat.le_refl _)
        · simp [Memory.readByte]
      · rename_i hne
        simp only [Memory.readByte, if_neg hne]
        exact ih (Memory.risesFrom_none hr)

/-- A write at or above the bound keeps the list rising from it. -/
theorem Memory.risesFrom_writeByte {m : Memory} {lo a : Nat} (v : Byte) (h : Memory.risesFrom (some lo) m = true)
    (ha : lo < a) : Memory.risesFrom (some lo) (Memory.writeByte m a v) = true := by
  induction m generalizing lo with
  | nil =>
    simp only [Memory.writeByte]
    split <;> simp [Memory.risesFrom, ha]
  | cons c rest ih =>
    obtain ⟨d, w⟩ := c
    simp only [Memory.risesFrom, Bool.and_eq_true, decide_eq_true_eq] at h
    simp only [Memory.writeByte]
    split
    · rename_i hlt
      split
      · simp [Memory.risesFrom, h]
      · simp [Memory.risesFrom, h, ha, hlt]
    · split
      · rename_i had
        subst had
        split
        · exact Memory.risesFrom_mono h.2 (by omega)
        · simp [Memory.risesFrom, h]
      · simp only [Memory.risesFrom, Bool.and_eq_true, decide_eq_true_eq]
        exact ⟨h.1, ih h.2 (by omega)⟩

/-- A write keeps the addresses rising. -/
theorem Memory.rises_writeByte {m : Memory} (a : Nat) (v : Byte) (h : Memory.risesFrom none m = true) :
    Memory.risesFrom none (Memory.writeByte m a v) = true := by
  cases m with
  | nil =>
    simp only [Memory.writeByte]
    split <;> rfl
  | cons c rest =>
    obtain ⟨d, w⟩ := c
    have hr : Memory.risesFrom (some d) rest = true := by
      simpa [Memory.risesFrom] using h
    simp only [Memory.writeByte]
    split
    · rename_i hlt
      split
      · exact h
      · simp [Memory.risesFrom, hlt, hr]
    · split
      · split
        · exact Memory.risesFrom_none hr
        · rename_i had _
          subst had
          simp [Memory.risesFrom, hr]
      · simp only [Memory.risesFrom, Bool.true_and]
        exact Memory.risesFrom_writeByte v hr (by omega)

/-- A property of the entries holds of every entry after a write, if it holds of the entry written. -/
theorem Memory.all_writeByte {m : Memory} {p : Host.Cell → Bool} (a : Nat) (v : Byte) (h : m.all p = true)
    (hv : v ≠ unlistedByte → p (a, v) = true) : (Memory.writeByte m a v).all p = true := by
  induction m with
  | nil =>
    simp only [Memory.writeByte]
    split <;> simp_all
  | cons c rest ih =>
    obtain ⟨d, w⟩ := c
    simp only [List.all_cons, Bool.and_eq_true] at h
    simp only [Memory.writeByte]
    split
    · split <;> simp_all
    · split
      · split <;> simp_all
      · simp [h.1, ih h.2]

/-- A write of one byte keeps the canonical form. -/
theorem Memory.wf_writeByte {m : Memory} (a : Nat) (v : Byte) (h : m.wf = true) : (Memory.writeByte m a v).wf = true := by
  simp only [Memory.wf, Bool.and_eq_true] at h ⊢
  exact ⟨Memory.rises_writeByte a v h.1, Memory.all_writeByte a v h.2 (by simp)⟩

/-- A write of a string keeps the canonical form. -/
theorem Memory.wf_write {m : Memory} (off : Nat) (s : Bytes) (h : m.wf = true) : (Memory.write m off s).wf = true := by
  induction s generalizing m off with
  | nil => exact h
  | cons b rest ih => exact ih (off + 1) (Memory.wf_writeByte off b h)

/-- A write of a byte of BUF keeps every entry a byte of BUF. -/
theorem Memory.inRange_writeByte {m : Memory} {a : Nat} (v : Byte) (h : m.inRange = true) (ha : a < Config.bufSize) :
    (Memory.writeByte m a v).inRange = true :=
  Memory.all_writeByte a v h (by simp [ha])

/-- A write inside BUF keeps every entry a byte of BUF. -/
theorem Memory.inRange_write {m : Memory} {off : Nat} {s : Bytes} (h : m.inRange = true)
    (hs : off + s.length ≤ Config.bufSize) : (Memory.write m off s).inRange = true := by
  induction s generalizing m off with
  | nil => exact h
  | cons b rest ih =>
    simp only [List.length_cons] at hs
    exact ih (Memory.inRange_writeByte b h (by omega)) (by omega)

/-- A write of a string leaves every byte outside it as it was. -/
theorem Memory.readByte_write_of_outside (m : Memory) {off a : Nat} (s : Bytes) (h : a < off ∨ off + s.length ≤ a) :
    Memory.readByte (Memory.write m off s) a = Memory.readByte m a := by
  induction s generalizing m off with
  | nil => rfl
  | cons b rest ih =>
    simp only [List.length_cons] at h
    rw [Memory.write_cons, ih _ (by omega), Memory.readByte_writeByte_of_ne _ _ (by omega)]

/-- A byte inside a string just written reads as the string's byte. -/
theorem Memory.readByte_write_of_inside {m : Memory} (off : Nat) (s : Bytes) (i : Nat) (hi : i < s.length)
    (h : m.wf = true) : Memory.readByte (Memory.write m off s) (off + i) = s[i] := by
  induction s generalizing m off i with
  | nil => simp at hi
  | cons b rest ih =>
    cases i with
    | zero =>
      rw [Memory.write_cons, Memory.readByte_write_of_outside _ _ (by omega)]
      simp only [Memory.wf, Bool.and_eq_true] at h
      exact Memory.readByte_writeByte_self_of_rises _ _ h.1
    | succ i =>
      rw [Memory.write_cons, show off + (i + 1) = off + 1 + i by omega, ih (off + 1) i (by simpa using hi)
        (Memory.wf_writeByte off b h)]
      rfl

@[simp] theorem Memory.length_read (m : Memory) (off n : Nat) : (Memory.read m off n).length = n := by
  simp [Memory.read]

/-- Byte i of a string that is read. -/
theorem Memory.getElem_read (m : Memory) (off n i : Nat) (h : i < (Memory.read m off n).length) :
    (Memory.read m off n)[i] = Memory.readByte m (off + i) := by
  simp [Memory.read]

/-- Reading back the region just written gives the string written. -/
theorem Memory.read_write_self {m : Memory} (off : Nat) (s : Bytes) (h : m.wf = true) :
    Memory.read (Memory.write m off s) off s.length = s := by
  apply List.ext_getElem
  · simp
  · intro i h1 h2
    rw [Memory.getElem_read, Memory.readByte_write_of_inside off s i h2 h]

/-- A read of a region that a write does not meet gives what it gave before. -/
theorem Memory.read_write_of_disjoint (m : Memory) {off n off' : Nat} (s : Bytes)
    (h : off + n ≤ off' ∨ off' + s.length ≤ off) : Memory.read (Memory.write m off' s) off n = Memory.read m off n := by
  apply List.ext_getElem
  · simp
  · intro i h1 h2
    simp only [Memory.length_read] at h1
    rw [Memory.getElem_read, Memory.getElem_read, Memory.readByte_write_of_outside _ _ (by omega)]

end Sys2Proof.Machine
end

