-- ==== Sys2Proof/Laws/State.lean ====
section
/-! SUPPORT. Each named update of the state, field by field, so that no later proof unfolds a record update. -/

namespace Sys2Proof.Machine

@[simp] theorem State.startCommand_irqEn (w : Word) (s : State) : (State.startCommand w s).irqEn = s.irqEn := rfl
@[simp] theorem State.startCommand_busy (w : Word) (s : State) : (State.startCommand w s).busy = true := rfl
@[simp] theorem State.startCommand_err (w : Word) (s : State) : (State.startCommand w s).err = false := rfl
@[simp] theorem State.startCommand_matched (w : Word) (s : State) : (State.startCommand w s).matched = false := rfl
@[simp] theorem State.startCommand_cmd (w : Word) (s : State) : (State.startCommand w s).cmd = w := rfl
@[simp] theorem State.startCommand_errcode (w : Word) (s : State) : (State.startCommand w s).errcode = 0 := rfl
@[simp] theorem State.startCommand_done (w : Word) (s : State) : (State.startCommand w s).done = false := rfl
@[simp] theorem State.startCommand_wign (w : Word) (s : State) : (State.startCommand w s).wign = s.wign := rfl
@[simp] theorem State.startCommand_regs (w : Word) (s : State) : (State.startCommand w s).regs = s.regs := rfl
@[simp] theorem State.startCommand_res (w : Word) (s : State) : (State.startCommand w s).res = s.res := rfl
@[simp] theorem State.startCommand_key (w : Word) (s : State) : (State.startCommand w s).key = s.key := rfl
@[simp] theorem State.startCommand_buf (w : Word) (s : State) : (State.startCommand w s).buf = s.buf := rfl
@[simp] theorem State.startCommand_snap (w : Word) (s : State) : (State.startCommand w s).snap = some s.liveInputs := rfl
@[simp] theorem State.startCommand_rstN (w : Word) (s : State) : (State.startCommand w s).rstN = s.rstN := rfl
@[simp] theorem State.startCommand_inputs (w : Word) (s : State) : (State.startCommand w s).inputs = s.inputs := rfl
@[simp] theorem State.startCommand_port (w : Word) (s : State) : (State.startCommand w s).port = s.port := rfl

@[simp] theorem State.commit_irqEn (c : Commit) (s : State) : (State.commit c s).irqEn = s.irqEn := rfl
@[simp] theorem State.commit_busy (c : Commit) (s : State) : (State.commit c s).busy = false := rfl
@[simp] theorem State.commit_err (c : Commit) (s : State) : (State.commit c s).err = s.err := rfl
@[simp] theorem State.commit_matched (c : Commit) (s : State) : (State.commit c s).matched = c.matched.getD s.matched := rfl
@[simp] theorem State.commit_cmd (c : Commit) (s : State) : (State.commit c s).cmd = s.cmd := rfl
@[simp] theorem State.commit_errcode (c : Commit) (s : State) : (State.commit c s).errcode = s.errcode := rfl
@[simp] theorem State.commit_done (c : Commit) (s : State) : (State.commit c s).done = true := rfl
@[simp] theorem State.commit_wign (c : Commit) (s : State) : (State.commit c s).wign = s.wign := rfl
@[simp] theorem State.commit_regs (c : Commit) (s : State) : (State.commit c s).regs = s.regs := rfl
@[simp] theorem State.commit_res (c : Commit) (s : State) : (State.commit c s).res = c.applyRes s.res := rfl
@[simp] theorem State.commit_key (c : Commit) (s : State) : (State.commit c s).key = s.key := rfl
@[simp] theorem State.commit_buf (c : Commit) (s : State) : (State.commit c s).buf = c.applyMem s.buf := rfl
@[simp] theorem State.commit_snap (c : Commit) (s : State) : (State.commit c s).snap = none := rfl
@[simp] theorem State.commit_rstN (c : Commit) (s : State) : (State.commit c s).rstN = s.rstN := rfl
@[simp] theorem State.commit_inputs (c : Commit) (s : State) : (State.commit c s).inputs = s.inputs := rfl
@[simp] theorem State.commit_port (c : Commit) (s : State) : (State.commit c s).port = s.port := rfl

@[simp] theorem State.raiseError_irqEn (e : ErrorCode) (s : State) : (State.raiseError e s).irqEn = s.irqEn := rfl
@[simp] theorem State.raiseError_busy (e : ErrorCode) (s : State) : (State.raiseError e s).busy = false := rfl
@[simp] theorem State.raiseError_err (e : ErrorCode) (s : State) : (State.raiseError e s).err = true := rfl
@[simp] theorem State.raiseError_matched (e : ErrorCode) (s : State) : (State.raiseError e s).matched = s.matched := rfl
@[simp] theorem State.raiseError_cmd (e : ErrorCode) (s : State) : (State.raiseError e s).cmd = s.cmd := rfl
@[simp] theorem State.raiseError_errcode (e : ErrorCode) (s : State) : (State.raiseError e s).errcode = e.code := rfl
@[simp] theorem State.raiseError_done (e : ErrorCode) (s : State) : (State.raiseError e s).done = true := rfl
@[simp] theorem State.raiseError_wign (e : ErrorCode) (s : State) : (State.raiseError e s).wign = s.wign := rfl
@[simp] theorem State.raiseError_regs (e : ErrorCode) (s : State) : (State.raiseError e s).regs = s.regs := rfl
@[simp] theorem State.raiseError_res (e : ErrorCode) (s : State) : (State.raiseError e s).res = s.res := rfl
@[simp] theorem State.raiseError_key (e : ErrorCode) (s : State) : (State.raiseError e s).key = s.key := rfl
@[simp] theorem State.raiseError_buf (e : ErrorCode) (s : State) : (State.raiseError e s).buf = s.buf := rfl
@[simp] theorem State.raiseError_snap (e : ErrorCode) (s : State) : (State.raiseError e s).snap = none := rfl
@[simp] theorem State.raiseError_rstN (e : ErrorCode) (s : State) : (State.raiseError e s).rstN = s.rstN := rfl
@[simp] theorem State.raiseError_inputs (e : ErrorCode) (s : State) : (State.raiseError e s).inputs = s.inputs := rfl
@[simp] theorem State.raiseError_port (e : ErrorCode) (s : State) : (State.raiseError e s).port = s.port := rfl

@[simp] theorem State.resetBlock_irqEn (s : State) : (State.resetBlock s).irqEn = false := rfl
@[simp] theorem State.resetBlock_busy (s : State) : (State.resetBlock s).busy = false := rfl
@[simp] theorem State.resetBlock_err (s : State) : (State.resetBlock s).err = false := rfl
@[simp] theorem State.resetBlock_matched (s : State) : (State.resetBlock s).matched = false := rfl
@[simp] theorem State.resetBlock_cmd (s : State) : (State.resetBlock s).cmd = 0 := rfl
@[simp] theorem State.resetBlock_errcode (s : State) : (State.resetBlock s).errcode = 0 := rfl
@[simp] theorem State.resetBlock_done (s : State) : (State.resetBlock s).done = false := rfl
@[simp] theorem State.resetBlock_wign (s : State) : (State.resetBlock s).wign = false := rfl
@[simp] theorem State.resetBlock_regs (s : State) : (State.resetBlock s).regs = OperandRegs.atReset := rfl
@[simp] theorem State.resetBlock_res (s : State) : (State.resetBlock s).res = ResultRegs.atReset := rfl
@[simp] theorem State.resetBlock_key (s : State) : (State.resetBlock s).key = Vector.replicate 8 0 := rfl
@[simp] theorem State.resetBlock_buf (s : State) : (State.resetBlock s).buf = [] := rfl
@[simp] theorem State.resetBlock_snap (s : State) : (State.resetBlock s).snap = none := rfl
@[simp] theorem State.resetBlock_rstN (s : State) : (State.resetBlock s).rstN = s.rstN := rfl
@[simp] theorem State.resetBlock_inputs (s : State) : (State.resetBlock s).inputs = s.inputs := rfl
@[simp] theorem State.resetBlock_port (s : State) : (State.resetBlock s).port = s.port := rfl

@[simp] theorem State.powerOnReset_irqEn (level : Bool) (s : State) : (State.powerOnReset level s).irqEn = false := rfl
@[simp] theorem State.powerOnReset_busy (level : Bool) (s : State) : (State.powerOnReset level s).busy = false := rfl
@[simp] theorem State.powerOnReset_err (level : Bool) (s : State) : (State.powerOnReset level s).err = false := rfl
@[simp] theorem State.powerOnReset_matched (level : Bool) (s : State) : (State.powerOnReset level s).matched = false := rfl
@[simp] theorem State.powerOnReset_cmd (level : Bool) (s : State) : (State.powerOnReset level s).cmd = 0 := rfl
@[simp] theorem State.powerOnReset_errcode (level : Bool) (s : State) : (State.powerOnReset level s).errcode = 0 := rfl
@[simp] theorem State.powerOnReset_done (level : Bool) (s : State) : (State.powerOnReset level s).done = false := rfl
@[simp] theorem State.powerOnReset_wign (level : Bool) (s : State) : (State.powerOnReset level s).wign = false := rfl
@[simp] theorem State.powerOnReset_regs (level : Bool) (s : State) : (State.powerOnReset level s).regs = OperandRegs.atReset := rfl
@[simp] theorem State.powerOnReset_res (level : Bool) (s : State) : (State.powerOnReset level s).res = ResultRegs.atReset := rfl
@[simp] theorem State.powerOnReset_key (level : Bool) (s : State) : (State.powerOnReset level s).key = Vector.replicate 8 0 := rfl
@[simp] theorem State.powerOnReset_buf (level : Bool) (s : State) : (State.powerOnReset level s).buf = [] := rfl
@[simp] theorem State.powerOnReset_snap (level : Bool) (s : State) : (State.powerOnReset level s).snap = none := rfl
@[simp] theorem State.powerOnReset_rstN (level : Bool) (s : State) : (State.powerOnReset level s).rstN = level := rfl
@[simp] theorem State.powerOnReset_inputs (level : Bool) (s : State) : (State.powerOnReset level s).inputs = s.inputs := rfl
@[simp] theorem State.powerOnReset_port (level : Bool) (s : State) : (State.powerOnReset level s).port = .quiet := rfl

@[simp] theorem State.writeEvt_irqEn (v : Word) (s : State) : (State.writeEvt v s).irqEn = s.irqEn := rfl
@[simp] theorem State.writeEvt_busy (v : Word) (s : State) : (State.writeEvt v s).busy = s.busy := rfl
@[simp] theorem State.writeEvt_err (v : Word) (s : State) : (State.writeEvt v s).err = s.err := rfl
@[simp] theorem State.writeEvt_matched (v : Word) (s : State) : (State.writeEvt v s).matched = s.matched := rfl
@[simp] theorem State.writeEvt_cmd (v : Word) (s : State) : (State.writeEvt v s).cmd = s.cmd := rfl
@[simp] theorem State.writeEvt_errcode (v : Word) (s : State) : (State.writeEvt v s).errcode = s.errcode := rfl
@[simp] theorem State.writeEvt_done (v : Word) (s : State) : (State.writeEvt v s).done = clearedBy s.done (v.getLsbD 0) := rfl
@[simp] theorem State.writeEvt_wign (v : Word) (s : State) : (State.writeEvt v s).wign = clearedBy s.wign (v.getLsbD 1) := rfl
@[simp] theorem State.writeEvt_regs (v : Word) (s : State) : (State.writeEvt v s).regs = s.regs := rfl
@[simp] theorem State.writeEvt_res (v : Word) (s : State) : (State.writeEvt v s).res = s.res := rfl
@[simp] theorem State.writeEvt_key (v : Word) (s : State) : (State.writeEvt v s).key = s.key := rfl
@[simp] theorem State.writeEvt_buf (v : Word) (s : State) : (State.writeEvt v s).buf = s.buf := rfl
@[simp] theorem State.writeEvt_snap (v : Word) (s : State) : (State.writeEvt v s).snap = s.snap := rfl
@[simp] theorem State.writeEvt_rstN (v : Word) (s : State) : (State.writeEvt v s).rstN = s.rstN := rfl
@[simp] theorem State.writeEvt_inputs (v : Word) (s : State) : (State.writeEvt v s).inputs = s.inputs := rfl
@[simp] theorem State.writeEvt_port (v : Word) (s : State) : (State.writeEvt v s).port = s.port := rfl

/-- A soft reset is the reset of the block (R140). -/
@[simp] theorem State.softReset_eq (s : State) : s.softReset = s.resetBlock := rfl

@[simp] theorem State.liveInputs_regs (s : State) : s.liveInputs.regs = s.regs := rfl
@[simp] theorem State.liveInputs_key (s : State) : s.liveInputs.key = s.key := rfl
@[simp] theorem State.liveInputs_buf (s : State) : s.liveInputs.buf = s.buf := rfl

/-- A command that has just started reads the inputs as they stood at the CMD write (R55). -/
@[simp] theorem State.operands_startCommand (w : Word) (s : State) : (State.startCommand w s).operands = s.liveInputs := rfl

/-- With no snapshot held, the inputs are those that stand (R55). -/
theorem State.operands_of_snap_none {s : State} (h : s.snap = none) : s.operands = s.liveInputs := by
  simp [State.operands, h]

end Sys2Proof.Machine
end

