-- ==== Sys2Proof/Laws/Ops.lean ====
section
/-! SUPPORT. The shared operations: what each one can do, said once. -/

namespace Sys2Proof.Machine

/-- Every check holds exactly when no check fails. -/
theorem firstFailure_eq_none (cs : List Check) : firstFailure cs = none ↔ ∀ c ∈ cs, c.ok = true := by
  induction cs with
  | nil => simp [firstFailure]
  | cons c rest ih =>
    simp only [firstFailure, List.mem_cons, forall_eq_or_imp]
    split <;> simp_all

/-- The error reported is that of a failing check with no failing check before it (R124). -/
theorem firstFailure_eq_some {cs : List Check} {e : ErrorCode} (h : firstFailure cs = some e) :
    ∃ before c after, cs = before ++ c :: after ∧ (∀ d ∈ before, d.ok = true) ∧ c.ok = false ∧ c.code = e := by
  induction cs with
  | nil => simp [firstFailure] at h
  | cons c rest ih =>
    simp only [firstFailure] at h
    split at h
    · rename_i hc
      obtain ⟨before, d, after, rfl, hb, hd, he⟩ := ih h
      exact ⟨c :: before, d, after, rfl, by simpa [hc] using hb, hd, he⟩
    · rename_i hc
      exact ⟨[], c, rest, rfl, by simp, by simpa using hc, by simpa using h⟩

/-- The error reported is the error of one of the checks. -/
theorem firstFailure_mem {cs : List Check} {e : ErrorCode} (h : firstFailure cs = some e) :
    ∃ c ∈ cs, c.ok = false ∧ c.code = e := by
  obtain ⟨before, c, after, rfl, _, hc, he⟩ := firstFailure_eq_some h
  exact ⟨c, by simp, hc, he⟩

/-- What a host write can do (R15, R145). -/
theorem State.hostWrite_cases (r : Reg) (v : Word) (s : State) :
    (s.busy = true ∧ busyLocked r = true ∧ s.hostWrite r v = { s with wign := true }) ∨
    (r = .ctrl ∧ v.getLsbD 1 = true ∧ s.hostWrite r v = s.resetBlock) ∨
    (r = .ctrl ∧ v.getLsbD 1 = false ∧ s.hostWrite r v = { s with irqEn := v.getLsbD 0 }) ∨
    (r = .evt ∧ s.hostWrite r v = s.writeEvt v) ∨
    (r = .cmd ∧ s.busy = false ∧ s.hostWrite r v = s.startCommand v) ∨
    (∃ i, r = .key i ∧ s.busy = false ∧ s.hostWrite r v = { s with key := s.key.set i.val v }) ∨
    (∃ i, r = .bufWord i ∧ s.busy = false ∧ s.hostWrite r v = { s with buf := s.buf.write (4 * i.val) (lanes v) }) ∨
    (s.busy = false ∧ s.hostWrite r v = { s with regs := s.regs.set r v }) ∨
    s.hostWrite r v = s := by
  by_cases hc : r = .ctrl
  · subst hc
    by_cases hv : v.getLsbD 1 = true
    · exact .inr (.inl ⟨rfl, hv, by simp only [State.hostWrite, busyLocked, State.writeReg, State.writeCtrl, hv]; simp⟩)
    · refine .inr (.inr (.inl ⟨rfl, by simpa using hv, ?_⟩))
      simp only [State.hostWrite, busyLocked, State.writeReg, State.writeCtrl, if_neg hv]
      simp
  · by_cases hb : s.busy = true
    · by_cases hl : busyLocked r = true
      · exact .inl ⟨hb, hl, by simp [State.hostWrite, hb, hl]⟩
      · cases r <;> simp [busyLocked] at hl hc <;> simp [State.hostWrite, busyLocked, State.writeReg]
    · replace hb : s.busy = false := by simpa using hb
      cases r <;> simp at hc <;> simp [State.hostWrite, State.writeReg, hb]

/-- What one access on the port can do (R50, R53). -/
theorem State.busCycle_cases (a : BusAccess) (s : State) :
    ((a.widthOk = false ∨ a.aligned = false) ∧ s.busCycle a = (.busError, s)) ∨
    (a.widthOk = true ∧ a.aligned = true ∧ a.kind = .read ∧ s.busCycle a = (.data (s.readReg (regAt a.offset)), s)) ∨
    (∃ v, a.widthOk = true ∧ a.aligned = true ∧ a.kind = .write v ∧
      s.busCycle a = (.ack, s.hostWrite (regAt a.offset) v)) := by
  by_cases hw : a.widthOk = true
  · by_cases ha : a.aligned = true
    · cases hk : a.kind with
      | read => exact .inr (.inl ⟨hw, ha, rfl, by simp [State.busCycle, hw, ha, hk]⟩)
      | write v => exact .inr (.inr ⟨v, hw, ha, rfl, by simp [State.busCycle, hw, ha, hk]⟩)
    · exact .inl ⟨.inr (by simpa using ha), by simp [State.busCycle, ha]⟩
  · exact .inl ⟨.inl (by simpa using hw), by simp [State.busCycle, hw]⟩

/-- Where a step that takes an access goes on, the access was a legal one in the window with rst_n at 1: a read, which
changes nothing but the port's answer, or a write. -/
theorem State.takeAccess_next {a : BusAccess} {s t : State} (h : s.takeAccess a = .next t) :
    a.wf = true ∧ s.rstN = true ∧
      ((a.kind = .read ∧ t = { s with port := .data (s.readReg (regAt a.offset)) }) ∨
       (∃ v, a.kind = .write v ∧ t = { s.hostWrite (regAt a.offset) v with port := .ack })) := by
  unfold State.takeAccess at h
  split at h
  · rename_i hin
    split at h
    · rename_i hr
      rcases State.busCycle_cases a s with ⟨_, he⟩ | ⟨hw, ha, hk, he⟩ | ⟨v, hw, ha, hk, he⟩
      · rw [he] at h
        simp at h
      · rw [he] at h
        simp only at h
        split at h
        · simp at h
        · refine ⟨by simp [BusAccess.wf, hw, ha, hin], hr, .inl ⟨hk, ?_⟩⟩
          simpa using h.symm
      · rw [he] at h
        simp only at h
        split at h
        · simp at h
        · refine ⟨by simp [BusAccess.wf, hw, ha, hin], hr, .inr ⟨v, hk, ?_⟩⟩
          simpa using h.symm
    · simp at h
  · simp at h

/-- What a level of rst_n can do (R141): nothing, where it is 1 and stays 1, or a power-on reset. -/
theorem State.drivePin_cases (level : Bool) (s : State) :
    (level = true ∧ s.rstN = true ∧ s.drivePin level = s) ∨
    ((level = false ∨ s.rstN = false) ∧ s.drivePin level = s.powerOnReset level) := by
  unfold State.drivePin
  split
  · rename_i h
    exact .inl ⟨by simp_all, by simp_all, rfl⟩
  · rename_i h
    refine .inr ⟨?_, rfl⟩
    cases level <;> simp_all

/-- A write keeps the model's own queue and the level of rst_n. -/
theorem State.hostWrite_inputs (r : Reg) (v : Word) (s : State) : (s.hostWrite r v).inputs = s.inputs := by
  rcases State.hostWrite_cases r v s with ⟨_, _, h⟩ | ⟨_, _, h⟩ | ⟨_, _, h⟩ | ⟨_, h⟩ | ⟨_, _, h⟩ | ⟨_, _, _, h⟩ |
    ⟨_, _, _, h⟩ | ⟨_, h⟩ | h <;> rw [h] <;> rfl

theorem State.hostWrite_rstN (r : Reg) (v : Word) (s : State) : (s.hostWrite r v).rstN = s.rstN := by
  rcases State.hostWrite_cases r v s with ⟨_, _, h⟩ | ⟨_, _, h⟩ | ⟨_, _, h⟩ | ⟨_, h⟩ | ⟨_, _, h⟩ | ⟨_, _, _, h⟩ |
    ⟨_, _, _, h⟩ | ⟨_, h⟩ | h <;> rw [h] <;> rfl

/-- A commit that writes inside BUF keeps BUF canonical and in range. -/
theorem Commit.applyMem_ok {c : Commit} {m : Memory} (hw : m.wf = true) (hr : m.inRange = true)
    (hc : ∀ off bs, c.mem = some (off, bs) → off + bs.length ≤ Config.bufSize) :
    (c.applyMem m).wf = true ∧ (c.applyMem m).inRange = true := by
  unfold Commit.applyMem
  split
  · exact ⟨hw, hr⟩
  · rename_i off bs hm
    exact ⟨Memory.wf_write off bs hw, Memory.inRange_write hr (hc off bs hm)⟩

end Sys2Proof.Machine
end

