-- ==== Sys2Proof/Laws/Exec.lean ====
section
/-! SUPPORT. What a command can do, said once: it raises one error, or it commits, and a commit stays inside BUF. -/

namespace Sys2Proof.Machine

/-- A region that passes its check lies inside BUF (R52). -/
theorem Region.check_ok (r : Region) : r.check.ok = true ↔ r.off + r.len ≤ Config.bufSize := by
  simp [Region.check, Region.valid]

/-- What an attempt that succeeds returns (R107). -/
theorem tryDecrypt_spec {mk raw : Bytes} {c : Word} {r : Opened} (h : tryDecrypt mk raw c = some r) :
    r.tc = c ∧ r.seq = packetSeq raw ∧ r.plaintext.length = raw.length - 10 := by
  simp only [tryDecrypt] at h
  split at h
  · obtain rfl := Option.some.inj h
    simp [packetPayload]
  · simp at h

/-- A search that succeeds returns what an attempt at one of its candidates returns (R110). -/
theorem searchIn_spec {mk raw : Bytes} {cs : List Word} {r : Opened} (h : searchIn mk raw cs = some r) :
    ∃ c ∈ cs, tryDecrypt mk raw c = some r := by
  induction cs with
  | nil => simp [searchIn] at h
  | cons c rest ih =>
    simp only [searchIn] at h
    split at h
    · rename_i r' hr
      obtain rfl := Option.some.inj h
      exact ⟨c, by simp, hr⟩
    · obtain ⟨d, hd, hr⟩ := ih h
      exact ⟨d, by simp [hd], hr⟩

@[simp] theorem Snapshot.length_bytes (x : Snapshot) (r : Region) : (x.bytes r).length = r.len := by
  simp [Snapshot.bytes]

@[simp] theorem Snapshot.length_srcBytes (x : Snapshot) : x.srcBytes.length = x.srcLen := by
  simp [Snapshot.srcBytes, Snapshot.src]

/-- How a command ends (R67 to R69): an error that HUBC raises, or a commit whose bytes lie inside BUF. -/
def Ends (s : State) (o : Host.Outcome State Fault Refusal) : Prop :=
  (∃ e, e ≠ .keyDerivationError ∧ o = .next (s.raiseError e)) ∨
  (∃ c : Commit, (∀ off bs, c.mem = some (off, bs) → off + bs.length ≤ Config.bufSize) ∧ o = .next (s.commit c))

/-- A commit that writes no byte of BUF. -/
theorem Ends.commitRegs (s : State) {c : Commit} (h : c.mem = none) : Ends s (.next (s.commit c)) :=
  .inr ⟨c, by simp [h], rfl⟩

/-- A commit of a string that fits. -/
theorem Ends.commitMem (s : State) {c : Commit} {off : Nat} {bs : Bytes} (h : c.mem = some (off, bs))
    (hb : off + bs.length ≤ Config.bufSize) : Ends s (.next (s.commit c)) := by
  refine .inr ⟨c, ?_, rfl⟩
  intro off' bs' h'
  rw [h] at h'
  simp only [Option.some.injEq, Prod.mk.injEq] at h'
  obtain ⟨rfl, rfl⟩ := h'
  exact hb

/-- An error that a check reports. -/
theorem Ends.error (s : State) {e : ErrorCode} (h : e ≠ .keyDerivationError) : Ends s (.next (s.raiseError e)) :=
  .inl ⟨e, h, rfl⟩

/-- A failing check of a list whose codes are all raised codes. -/
theorem Ends.ofFailure (s : State) {cs : List Check} {e : ErrorCode} (h : firstFailure cs = some e)
    (hc : ∀ c ∈ cs, c.code ≠ .keyDerivationError) : Ends s (.next (s.raiseError e)) := by
  obtain ⟨c, hm, _, rfl⟩ := firstFailure_mem h
  exact Ends.error s (hc c hm)

theorem execNop_ends (s : State) : Ends s (execNop s) := Ends.commitRegs s rfl

theorem execCmac_ends (s : State) : Ends s (execCmac s) := by
  unfold execCmac
  dsimp only
  split
  · rename_i e h
    exact Ends.ofFailure s h (by simp [cmacChecks, Snapshot.keyCheck, Region.check])
  · rename_i h
    simp only [firstFailure_eq_none, cmacChecks, List.forall_mem_cons, Region.check_ok] at h
    exact Ends.commitMem s rfl (by simpa [Snapshot.dst] using h.2.2.1)

theorem execTag_ends (s : State) : Ends s (execTag s) := by
  unfold execTag
  dsimp only
  split
  · rename_i e h
    exact Ends.ofFailure s h (by simp [tagChecks, Snapshot.keyCheck, Region.check])
  · rename_i h
    simp only [firstFailure_eq_none, tagChecks, List.forall_mem_cons, Region.check_ok] at h
    exact Ends.commitMem s rfl (by simpa [Snapshot.dst] using h.2.2.1)

theorem execVerify_ends (s : State) : Ends s (execVerify s) := by
  unfold execVerify
  dsimp only
  split
  · rename_i e h
    exact Ends.ofFailure s h (by simp [verifyChecks, Snapshot.keyCheck, Snapshot.tagLengthCheck, Region.check])
  · exact Ends.commitRegs s rfl

theorem execCtr_ends (s : State) : Ends s (execCtr s) := by
  unfold execCtr
  dsimp only
  split
  · rename_i e h
    exact Ends.ofFailure s h (by simp [ctrChecks, Snapshot.keyCheck, Region.check])
  · rename_i h
    simp only [firstFailure_eq_none, ctrChecks, List.forall_mem_cons, Region.check_ok] at h
    exact Ends.commitMem s rfl (by simpa [Snapshot.dst] using h.2.2.2.1)

theorem execKdf_ends (s : State) : Ends s (execKdf s) := by
  unfold execKdf
  dsimp only
  split
  · rename_i e h
    exact Ends.ofFailure s h (by simp [kdfChecks, Snapshot.keyCheck, Region.check])
  · rename_i h
    simp only [firstFailure_eq_none, kdfChecks, List.forall_mem_cons, Region.check_ok] at h
    exact Ends.commitMem s rfl (by simpa [Snapshot.dst] using h.2.2.2.1)

theorem execKdfNum_ends (s : State) : Ends s (execKdfNum s) := by
  unfold execKdfNum
  dsimp only
  split
  · rename_i e h
    exact Ends.ofFailure s h (by simp [kdfNumChecks, Snapshot.keyCheck, Region.check])
  · rename_i h
    simp only [firstFailure_eq_none, kdfNumChecks, List.forall_mem_cons, Region.check_ok] at h
    exact Ends.commitMem s rfl (by simpa [Snapshot.dst] using h.2.2.1)

theorem execKsStage1_ends (s : State) : Ends s (execKsStage1 s) := by
  unfold execKsStage1
  dsimp only
  split
  · rename_i e h
    exact Ends.ofFailure s h (by simp [ksStage1Checks, Snapshot.keyCheck, Region.check])
  · rename_i h
    simp only [firstFailure_eq_none, ksStage1Checks, List.forall_mem_cons, Region.check_ok] at h
    have hk := length_opKey_of_keySizeOk h.1
    refine Ends.commitMem s rfl ?_
    have h2 := h.2.1
    simp only [Snapshot.dst] at h2
    simp only [stage1, List.length_append, length_kdf, hk]
    omega

theorem execKsStage2_ends (s : State) : Ends s (execKsStage2 s) := by
  unfold execKsStage2
  dsimp only
  split
  · rename_i e h
    exact Ends.ofFailure s h (by simp [ksStage2Checks, Snapshot.keyCheck, Region.check])
  · rename_i h
    simp only [firstFailure_eq_none, ksStage2Checks, List.forall_mem_cons, Region.check_ok] at h
    refine Ends.commitMem s rfl ?_
    have h2 := h.2.2.1
    simp only [Snapshot.dst] at h2
    simp only [stage2, List.length_append, length_kdf, Memory.length_read]
    exact h2

theorem execKsDerive_ends (s : State) : Ends s (execKsDerive s) := by
  unfold execKsDerive
  dsimp only
  split
  · rename_i e h
    exact Ends.ofFailure s h (by simp [ksDeriveChecks, Snapshot.keyCheck, Region.check])
  · rename_i h
    simp only [firstFailure_eq_none, ksDeriveChecks, List.forall_mem_cons, Region.check_ok] at h
    have hk := length_opKey_of_keySizeOk h.1
    refine Ends.commitMem s rfl ?_
    have h2 := h.2.1
    simp only [Snapshot.dst] at h2
    simp only [schedule, List.length_append, length_kdf, hk]
    exact h2

theorem execParse_ends (s : State) : Ends s (execParse s) := by
  unfold execParse
  dsimp only
  split
  · rename_i e h
    exact Ends.ofFailure s h (by simp [parseChecks, Snapshot.packetCheck, Region.check])
  · exact Ends.commitRegs s rfl

/-- The length of a packet that is built (R104). -/
theorem length_buildPacket (s : BitVec 10) {tag ct : Bytes} (h : tag.length = Config.tagLen) :
    (buildPacket s tag ct).length = ct.length + 10 := by
  simp only [buildPacket, List.length_append, length_be16, length_zeros, h, Config.tagLen]
  omega

theorem execBuild_ends (s : State) : Ends s (execBuild s) := by
  unfold execBuild
  dsimp only
  split
  · rename_i e h
    exact Ends.ofFailure s h (by simp [buildChecks, Region.check])
  · rename_i h
    simp only [firstFailure_eq_none, buildChecks, List.forall_mem_cons, Region.check_ok] at h
    refine Ends.commitMem s rfl ?_
    have h2 := h.2.2.1
    simp only [Snapshot.dst] at h2
    rw [length_buildPacket _ (by simp [Snapshot.aux]), Snapshot.length_srcBytes]
    exact h2

theorem execEncrypt_ends (s : State) : Ends s (execEncrypt s) := by
  unfold execEncrypt
  dsimp only
  split
  · rename_i e h
    exact Ends.ofFailure s h (by simp [encryptChecks, Snapshot.keyCheck, Region.check])
  · rename_i h
    simp only [firstFailure_eq_none, encryptChecks, List.forall_mem_cons, Region.check_ok] at h
    refine Ends.commitMem s rfl ?_
    have h2 := h.2.2.1
    simp only [Snapshot.dst] at h2
    rw [encryptPacket, length_buildPacket _ (by simp), length_ctrCipher, Snapshot.length_srcBytes]
    exact h2

theorem execDecryptKnown_ends (s : State) : Ends s (execDecryptKnown s) := by
  unfold execDecryptKnown
  dsimp only
  split
  · rename_i e h
    exact Ends.ofFailure s h (by simp [decryptKnownChecks, Snapshot.keyCheck, Snapshot.packetCheck, Region.check])
  · rename_i h
    simp only [firstFailure_eq_none, decryptKnownChecks, List.forall_mem_cons, Region.check_ok] at h
    split
    · exact Ends.error s (by simp)
    · rename_i r hr
      refine Ends.commitMem s rfl ?_
      have h2 := h.2.2.1
      simp only [Snapshot.dst, Snapshot.payloadLen] at h2
      rw [(tryDecrypt_spec hr).2.2, Snapshot.length_srcBytes]
      exact h2

theorem execDecrypt_ends (s : State) : Ends s (execDecrypt s) := by
  unfold execDecrypt
  dsimp only
  split
  · rename_i e h
    exact Ends.ofFailure s h (by simp [decryptChecks, Snapshot.keyCheck, Snapshot.packetCheck, Region.check])
  · rename_i h
    simp only [firstFailure_eq_none, decryptChecks, List.forall_mem_cons, Region.check_ok] at h
    split
    · exact Ends.error s (by simp)
    · rename_i r hr
      obtain ⟨c, _, hc⟩ := searchIn_spec hr
      refine Ends.commitMem s rfl ?_
      have h2 := h.2.2.1
      simp only [Snapshot.dst, Snapshot.payloadLen] at h2
      rw [(tryDecrypt_spec hc).2.2, Snapshot.length_srcBytes]
      exact h2

theorem execFindTc_ends (s : State) : Ends s (execFindTc s) := by
  unfold execFindTc
  dsimp only
  split
  · rename_i e h
    exact Ends.ofFailure s h (by simp [findTcChecks, Snapshot.keyCheck, Snapshot.packetCheck, Region.check])
  · split
    · exact Ends.error s (by simp)
    · exact Ends.commitRegs s rfl

theorem execTime2tc_ends (s : State) : Ends s (execTime2tc s) := by
  unfold execTime2tc
  dsimp only
  split
  · rename_i e h
    exact Ends.ofFailure s h (by simp [time2tcChecks])
  · exact Ends.commitRegs s rfl

/-- Every command ends, in an error or in a commit inside BUF (R67, R121). -/
theorem exec_ends (i : Instr) (s : State) : Ends s (exec i s) := by
  cases i
  · exact execNop_ends s
  · exact execCmac_ends s
  · exact execTag_ends s
  · exact execVerify_ends s
  · exact execCtr_ends s
  · exact execKdf_ends s
  · exact execKdfNum_ends s
  · exact execKsStage1_ends s
  · exact execKsStage2_ends s
  · exact execKsDerive_ends s
  · exact execParse_ends s
  · exact execBuild_ends s
  · exact execEncrypt_ends s
  · exact execDecryptKnown_ends s
  · exact execDecrypt_ends s
  · exact execFindTc_ends s
  · exact execTime2tc_ends s

/-- What the engine's turn can do (R61, R67 to R69, R138): nothing, or one command ends. -/
theorem engineStep_ends (s : State) :
    (s.rstN && s.busy) = false ∧ engineStep s = .next s ∨ (s.rstN && s.busy) = true ∧ Ends s (engineStep s) := by
  unfold engineStep
  split
  · rename_i h
    refine .inr ⟨h, ?_⟩
    split
    · exact exec_ends _ s
    · exact Ends.error s (by simp)
  · rename_i h
    exact .inl ⟨by simpa using h, rfl⟩

/-- What a step that goes on can do: the engine's turn, a host access, or a level of rst_n. -/
theorem step_cases {s t : State} (h : step s = .next t) :
    (∃ u, (s.inputs = [] ∧ u = s ∨ ∃ rest, s.inputs = .engine :: rest ∧ u = { s with inputs := rest }) ∧
      engineStep u = .next t) ∨
    (∃ a rest, s.inputs = .access a :: rest ∧ State.takeAccess a { s with inputs := rest } = .next t) ∨
    (∃ level rest, s.inputs = .resetPin level :: rest ∧ t = State.drivePin level { s with inputs := rest }) := by
  unfold step at h
  split at h
  · rename_i hi
    exact .inl ⟨s, .inl ⟨hi, rfl⟩, h⟩
  · rename_i rest hi
    exact .inl ⟨_, .inr ⟨rest, hi, rfl⟩, h⟩
  · rename_i a rest hi
    exact .inr (.inl ⟨a, rest, hi, h⟩)
  · rename_i level rest hi
    refine .inr (.inr ⟨level, rest, hi, ?_⟩)
    simpa using h.symm

end Sys2Proof.Machine
end

