-- ==== Sys2Proof/Laws/PerInstr.lean ====
section
/-! SUPPORT. A fact of every command's syntax and encoding, one lemma a command: its word is legal and names it (R59, R60). -/

/-- The command is well formed, its word has RSVD = 0, and the OPCODE of its word is the command's in the opcode map. -/
def Sys2Proof.Laws.CommandWord.Statement (i : Sys2Proof.Instr) : Prop :=
  i.wf = true ∧ Sys2Proof.rsvdField (Sys2Proof.encode i) = 0 ∧
    Sys2Proof.instrOfOpcode (Sys2Proof.opcodeField (Sys2Proof.encode i)).toNat = some i

theorem Sys2Proof.Laws.CommandWord.nop : Sys2Proof.Laws.CommandWord.Statement .nop := by
  refine ⟨rfl, ?_, ?_⟩ <;> decide

theorem Sys2Proof.Laws.CommandWord.cmac : Sys2Proof.Laws.CommandWord.Statement .cmac := by
  refine ⟨rfl, ?_, ?_⟩ <;> decide

theorem Sys2Proof.Laws.CommandWord.tag : Sys2Proof.Laws.CommandWord.Statement .tag := by
  refine ⟨rfl, ?_, ?_⟩ <;> decide

theorem Sys2Proof.Laws.CommandWord.verify : Sys2Proof.Laws.CommandWord.Statement .verify := by
  refine ⟨rfl, ?_, ?_⟩ <;> decide

theorem Sys2Proof.Laws.CommandWord.ctr : Sys2Proof.Laws.CommandWord.Statement .ctr := by
  refine ⟨rfl, ?_, ?_⟩ <;> decide

theorem Sys2Proof.Laws.CommandWord.kdf : Sys2Proof.Laws.CommandWord.Statement .kdf := by
  refine ⟨rfl, ?_, ?_⟩ <;> decide

theorem Sys2Proof.Laws.CommandWord.kdfNum : Sys2Proof.Laws.CommandWord.Statement .kdfNum := by
  refine ⟨rfl, ?_, ?_⟩ <;> decide

theorem Sys2Proof.Laws.CommandWord.ksStage1 : Sys2Proof.Laws.CommandWord.Statement .ksStage1 := by
  refine ⟨rfl, ?_, ?_⟩ <;> decide

theorem Sys2Proof.Laws.CommandWord.ksStage2 : Sys2Proof.Laws.CommandWord.Statement .ksStage2 := by
  refine ⟨rfl, ?_, ?_⟩ <;> decide

theorem Sys2Proof.Laws.CommandWord.ksDerive : Sys2Proof.Laws.CommandWord.Statement .ksDerive := by
  refine ⟨rfl, ?_, ?_⟩ <;> decide

theorem Sys2Proof.Laws.CommandWord.parse : Sys2Proof.Laws.CommandWord.Statement .parse := by
  refine ⟨rfl, ?_, ?_⟩ <;> decide

theorem Sys2Proof.Laws.CommandWord.build : Sys2Proof.Laws.CommandWord.Statement .build := by
  refine ⟨rfl, ?_, ?_⟩ <;> decide

theorem Sys2Proof.Laws.CommandWord.encrypt : Sys2Proof.Laws.CommandWord.Statement .encrypt := by
  refine ⟨rfl, ?_, ?_⟩ <;> decide

theorem Sys2Proof.Laws.CommandWord.decryptKnown : Sys2Proof.Laws.CommandWord.Statement .decryptKnown := by
  refine ⟨rfl, ?_, ?_⟩ <;> decide

theorem Sys2Proof.Laws.CommandWord.decrypt : Sys2Proof.Laws.CommandWord.Statement .decrypt := by
  refine ⟨rfl, ?_, ?_⟩ <;> decide

theorem Sys2Proof.Laws.CommandWord.findTc : Sys2Proof.Laws.CommandWord.Statement .findTc := by
  refine ⟨rfl, ?_, ?_⟩ <;> decide

theorem Sys2Proof.Laws.CommandWord.time2tc : Sys2Proof.Laws.CommandWord.Statement .time2tc := by
  refine ⟨rfl, ?_, ?_⟩ <;> decide
end

