-- ==== Sys2Proof/Tests/Slice0.lean ====
section
/-! SUPPORT. Tests of the model: the checks of WellFormed, the decoder on words written from the opcode map, vectors of
95_test_vectors.md, and for every statement with hypotheses a state and operands that meet them. -/

namespace Sys2Proof.Tests

open Sys2Proof Sys2Proof.Machine

/-! ## Helpers -/

/-- A KEY slot that holds `bs` from KEY[0] on. -/
def slot (bs : Bytes) : Vector Word 8 := Vector.ofFn fun i => wordAt bs (4 * i.val)

/-- The key K00..0f of the vectors. -/
def k16 : Bytes := (List.range 16).map (BitVec.ofNat 8)

/-- The key KRFC of the vectors. -/
def kRfc : Bytes := [0x2b, 0x7e, 0x15, 0x16, 0x28, 0xae, 0xd2, 0xa6, 0xab, 0xf7, 0x15, 0x88, 0x09, 0xcf, 0x4f, 0x3c]

/-- The first 16 bytes of the message M64 of the vectors. -/
def m16 : Bytes := [0x6b, 0xc1, 0xbe, 0xe2, 0x2e, 0x40, 0x9f, 0x96, 0xe9, 0x3d, 0x7e, 0x11, 0x73, 0x93, 0x17, 0x2a]

/-- A BUF that holds `bs` at `off` and zeros elsewhere. -/
def bufWith (off : Nat) (bs : Bytes) : Memory := Memory.write [] off bs

/-- The state after reset with operand registers, a 16-byte key and a BUF. -/
def withOps (regs : OperandRegs) (key : Bytes) (buf : Memory) : State :=
  { State.reset with regs := { regs with keylen := 16 }, key := slot key, buf := buf }

/-- The state after reset with the command of a word just started and events on their way. -/
def started (w : Word) (events : List Event) : State := { State.reset.startCommand w with inputs := events }

/-- The state after reset with events on their way. -/
def idleWith (events : List Event) : State := { State.reset with inputs := events }

/-- What a command leaves at a place of BUF. -/
def bufAfter (o : Host.Outcome State Fault Refusal) (off n : Nat) : Option Bytes :=
  match o with
  | .next t => some (t.buf.read off n)
  | _ => none

/-- What a command leaves in STATUS and ERRCODE. -/
def reportOf (o : Host.Outcome State Fault Refusal) : Option (Word × Word) :=
  match o with
  | .next t => some (t.readReg .status, t.readReg .errcode)
  | _ => none

/-- What a command leaves in the result registers. -/
def resultOf (o : Host.Outcome State Fault Refusal) : Option ResultRegs :=
  match o with
  | .next t => some t.res
  | _ => none

/-! ## WellFormed: an ill-formed term for each check, and a boundary term that passes -/

theorem test_wf_width_refused : (BusAccess.mk 8 0x008 .read).wf = false ∧ (BusAccess.mk 16 0x008 .read).widthOk = false := by decide
theorem test_wf_misaligned_refused : (BusAccess.mk 32 0x00A .read).aligned = false ∧ (BusAccess.mk 32 0x00A .read).wf = false := by
  decide
theorem test_wf_outside_window_refused :
    (BusAccess.mk 32 0x1000 .read).inWindow = false ∧ (BusAccess.mk 32 0x1000 .read).wf = false := by decide
theorem test_wf_last_offset : (BusAccess.mk 32 0xFFC (.write 0)).wf = true := by decide
theorem test_wf_reserved_name_refused :
    (Reg.reserved 0x010).wf = false ∧ (Reg.reserved 0x061).wf = false ∧ (Reg.reserved 0x400).wf = false := by decide
theorem test_wf_reserved_bounds :
    (Reg.reserved 0x060).wf = true ∧ (Reg.reserved 0x3FC).wf = true ∧ (Reg.reserved 0xFFC).wf = true := by decide
theorem test_wf_load_key_refused : loadKeyWf (zeros 24) = false ∧ loadKeyWf [] = false ∧ loadKeyWf (zeros 32) = true := by decide
theorem test_wf_load_buf_refused :
    loadBufWf 2 [0x00] = false ∧ loadBufWf 508 (zeros 5) = false ∧ loadBufWf 508 (zeros 4) = true := by decide
theorem test_wf_every_command : ∀ i, Laws.CommandWord.Statement i → i.wf = true := fun _ h => h.1

/-! ## Decode: every command's word, written out from R60, and words that are refused -/

theorem test_decode_nop : decode 0b00000000_00000000_00000000_00000000#32 = .ok .nop := by rfl
theorem test_decode_cmac : decode 0b00000000_00000000_00000000_00000001#32 = .ok .cmac := by rfl
theorem test_decode_tag : decode 0b00000000_00000000_00000000_00000010#32 = .ok .tag := by rfl
theorem test_decode_verify : decode 0b00000000_00000000_00000000_00000011#32 = .ok .verify := by rfl
theorem test_decode_ctr : decode 0b00000000_00000000_00000000_00000100#32 = .ok .ctr := by rfl
theorem test_decode_kdf : decode 0b00000000_00000000_00000000_00000101#32 = .ok .kdf := by rfl
theorem test_decode_kdfNum : decode 0b00000000_00000000_00000000_00000110#32 = .ok .kdfNum := by rfl
theorem test_decode_ksStage1 : decode 0b00000000_00000000_00000000_00000111#32 = .ok .ksStage1 := by rfl
theorem test_decode_ksStage2 : decode 0b00000000_00000000_00000000_00001000#32 = .ok .ksStage2 := by rfl
theorem test_decode_ksDerive : decode 0b00000000_00000000_00000000_00001001#32 = .ok .ksDerive := by rfl
theorem test_decode_parse : decode 0b00000000_00000000_00000000_00001010#32 = .ok .parse := by rfl
theorem test_decode_build : decode 0b00000000_00000000_00000000_00001011#32 = .ok .build := by rfl
theorem test_decode_encrypt : decode 0b00000000_00000000_00000000_00001100#32 = .ok .encrypt := by rfl
theorem test_decode_decryptKnown : decode 0b00000000_00000000_00000000_00001101#32 = .ok .decryptKnown := by rfl
theorem test_decode_decrypt : decode 0b00000000_00000000_00000000_00001110#32 = .ok .decrypt := by rfl
theorem test_decode_findTc : decode 0b00000000_00000000_00000000_00001111#32 = .ok .findTc := by rfl
theorem test_decode_time2tc : decode 0b00000000_00000000_00000000_00010000#32 = .ok .time2tc := by rfl

theorem test_decode_first_unassigned : decode 0x00000011#32 = .error .unassignedOpcode := by rfl
theorem test_decode_last_unassigned : decode 0x000000FF#32 = .error .unassignedOpcode := by rfl
theorem test_decode_reserved_bit_8 : decode 0x00000101#32 = .error .reservedBits := by rfl
theorem test_decode_reserved_bit_31 : decode 0x80000001#32 = .error .reservedBits := by rfl
theorem test_decode_table_word : decodeTableWord 32 0x0D = some .decryptKnown ∧ decodeTableWord 32 0x10D = none := by decide

/-! ## The functions, on vectors of 95_test_vectors.md -/

/-- V1.1. -/
theorem test_aes_128 : (aesEncrypt k16 (Block.ofBytes [0x00, 0x11, 0x22, 0x33, 0x44, 0x55, 0x66, 0x77, 0x88, 0x99, 0xaa, 0xbb, 0xcc, 0xdd, 0xee, 0xff])).bytes = [0x69, 0xc4, 0xe0, 0xd8, 0x6a, 0x7b, 0x04, 0x30, 0xd8, 0xcd, 0xb7, 0x80, 0x70, 0xb4, 0xc5, 0x5a] := by decide +kernel

/-- V1.7. -/
theorem test_aes_256 : (aesEncrypt (k16 ++ [0x10, 0x11, 0x12, 0x13, 0x14, 0x15, 0x16, 0x17, 0x18, 0x19, 0x1a, 0x1b, 0x1c, 0x1d, 0x1e, 0x1f])
    (Block.ofBytes [0x00, 0x11, 0x22, 0x33, 0x44, 0x55, 0x66, 0x77, 0x88, 0x99, 0xaa, 0xbb, 0xcc, 0xdd, 0xee, 0xff])).bytes = [0x8e, 0xa2, 0xb7, 0xca, 0x51, 0x67, 0x45, 0xbf, 0xea, 0xfc, 0x49, 0x90, 0x4b, 0x49, 0x60, 0x89] := by decide +kernel

/-- V1.3: the empty message. -/
theorem test_cmac_empty : cmac kRfc [] = [0xbb, 0x1d, 0x69, 0x29, 0xe9, 0x59, 0x37, 0x28, 0x7f, 0xa3, 0x7d, 0x12, 0x9b, 0x75, 0x67, 0x46] := by decide +kernel

/-- V4.3: the carry of the counter runs into the nonce. -/
theorem test_ctr_carry : ctrCipher kRfc ([0xf0, 0xf1, 0xf2, 0xf3, 0xf4, 0xf5, 0xf6, 0xf7, 0xf8, 0xf9, 0xfa, 0xfb] ++ be32 0xFFFFFFFF) (zeros 32) =
    [0x3c, 0xe1, 0x60, 0x83, 0x60, 0xd8, 0x3b, 0xf3, 0x78, 0xaa, 0x6f, 0x00, 0x0f, 0x61, 0x82, 0xc2] ++
      [0xc0, 0x44, 0xd6, 0xb0, 0x0c, 0x6c, 0xb7, 0xf6, 0xd3, 0xf2, 0x2f, 0x83, 0x8c, 0xb4, 0x3d, 0x6b] := by decide +kernel

/-- V5.1. -/
theorem test_dec_and_fixed : dec 4294967295 = [0x34, 0x32, 0x39, 0x34, 0x39, 0x36, 0x37, 0x32, 0x39, 0x35] ∧
    fixedInput labelNonceKey (dec 20000) 16 = [0x4e, 0x6f, 0x6e, 0x63, 0x65, 0x4b, 0x65, 0x79, 0x00, 0x32, 0x30, 0x30, 0x30, 0x30, 0x00, 0x00, 0x00, 0x80] := by decide

/-- V5.4b: 17 bytes are two blocks, the second one cut, and no prefix of a longer output. -/
theorem test_kdf_17 : kdf kRfc labelNonceKey (dec 20000) 17 = [0x4f, 0xc4, 0x4b, 0xe9, 0xa3, 0x61, 0x20, 0x19, 0xa7, 0x77, 0xc7, 0x08, 0x5c, 0x43, 0x52, 0xb2, 0x5c] := by decide +kernel

/-- V5.4c. -/
theorem test_kdf_empty : kdf kRfc labelNonceKey (dec 20000) 0 = [] := by decide

/-- Section 8: candidates are clipped at both ends of the TimeCounter range. -/
theorem test_candidates_clipped :
    candidates 0 2 = [0, 1, 2] ∧ candidates (-172801) 1 = [] ∧
    candidates 371085174374399 2 = [4294967293, 4294967294, 4294967295] := by decide

/-! ## The commands -/

/-- R119: from reset, NOP leaves STATUS and ERRCODE 0. -/
theorem test_nop : reportOf (exec .nop (started 0 [])) = some (0, 0) := by rfl

/-- V2.6. -/
theorem test_cmac : bufAfter (exec .cmac (withOps { OperandRegs.atReset with srcLen := 16, dstOff := 0x20 } kRfc (bufWith 0 m16)))
    0x20 16 = some [0x07, 0x0a, 0x16, 0xb4, 0x6b, 0x4d, 0x41, 0x44, 0xf7, 0x9b, 0xdd, 0x9d, 0xd0, 0x4a, 0x28, 0x7c] := by decide +kernel

/-- V2.8: the key check comes before the region check. -/
theorem test_cmac_key_first :
    reportOf (exec .cmac { State.reset with regs := { OperandRegs.atReset with keylen := 24, srcOff := 600 } }) = some (2, 0x01) := by
  decide

/-- V2.2, with the byte after the tag left as it was. -/
theorem test_tag : bufAfter (exec .tag (withOps { OperandRegs.atReset with dstOff := 0x10 } kRfc (bufWith 0x14 [0x55]))) 0x10 5
    = some [0xbb, 0x1d, 0x69, 0x29, 0x55] := by decide +kernel

/-- V2.12 and the offset past it. -/
theorem test_tag_last_region :
    firstFailure (tagChecks (withOps { OperandRegs.atReset with dstOff := 508 } kRfc []).operands) = none ∧
    firstFailure (tagChecks (withOps { OperandRegs.atReset with dstOff := 509 } kRfc []).operands) = some .bufferRange := by
  decide

/-- V3.2: one bit of the tag flipped. -/
theorem test_verify_mismatch :
    reportOf (exec .verify (withOps { OperandRegs.atReset with srcLen := 16, auxOff := 0x10, auxLen := 4 } kRfc
      (bufWith 0 (m16 ++ [0x07, 0x0a, 0x16, 0xb5])))) = some (0, 0) := by decide +kernel

/-- V3.9: the region check comes before the check of the tag's length. -/
theorem test_verify_range_first :
    reportOf (exec .verify (withOps { OperandRegs.atReset with srcOff := 0x1FF, srcLen := 2, auxLen := 3 } kRfc [])) = some (2, 0x81) := by
  decide

/-- V4.2, in place: the keystream is cut to the data. -/
theorem test_ctr : bufAfter (exec .ctr (withOps { OperandRegs.atReset with srcLen := 5, auxOff := 0x10, ctr0 := 0xFCFDFEFF } kRfc
    (bufWith 0 (m16 ++ [0xf0, 0xf1, 0xf2, 0xf3, 0xf4, 0xf5, 0xf6, 0xf7, 0xf8, 0xf9, 0xfa, 0xfb])))) 0 6 = some [0x87, 0x4d, 0x61, 0x91, 0xb6, 0x40] := by decide +kernel

/-- V5.2. -/
theorem test_kdf : bufAfter (exec .kdf (withOps { OperandRegs.atReset with
      srcLen := 8, auxOff := 8, auxLen := 5, dstOff := 4, dstLen := 16 } kRfc
    (bufWith 0 (labelNonceKey ++ [0x32, 0x30, 0x30, 0x30, 0x30])))) 4 16 = some [0x2d, 0xff, 0xe7, 0xb7, 0x29, 0x9d, 0x39, 0x98, 0x83, 0xbf, 0x7b, 0x2b, 0x78, 0x6f, 0xd9, 0xb9] := by decide +kernel

/-- V5.9a: the context of TC = 0 is "0". -/
theorem test_kdf_num : bufAfter (exec .kdfNum (withOps { OperandRegs.atReset with srcLen := 8, dstOff := 0x20, dstLen := 16 } kRfc
    (bufWith 0 labelNonceKey))) 0x20 16 = some [0x33, 0x3d, 0x5c, 0x88, 0x28, 0x67, 0x67, 0x84, 0x15, 0xd6, 0x91, 0xde, 0x37, 0xb5, 0x17, 0x25] := by decide +kernel

/-- V6.7. -/
theorem test_ks_stage1 : bufAfter (exec .ksStage1 (withOps { OperandRegs.atReset with tc := 20000, dstOff := 0x100 } k16 [])) 0x100 32
    = some ([0x5c, 0xac, 0x6a, 0xd3, 0xfa, 0x71, 0x16, 0x22, 0xe4, 0x68, 0x97, 0x4f, 0x8e, 0xb9, 0x06, 0x14] ++
      [0x43, 0xee, 0xe7, 0x46, 0xb9, 0x92, 0x39, 0x55, 0x51, 0xc3, 0xd4, 0xf1, 0x2e, 0x78, 0x96, 0x0d]) := by decide +kernel

/-- V6.8: in place, and the last 4 bytes of EKI stay. -/
theorem test_ks_stage2 : bufAfter (exec .ksStage2 (withOps { OperandRegs.atReset with
      srcOff := 0x100, dstOff := 0x100, seq := 42 } [] (bufWith 0x100 ([0x5c, 0xac, 0x6a, 0xd3, 0xfa, 0x71, 0x16, 0x22, 0xe4, 0x68, 0x97, 0x4f, 0x8e, 0xb9, 0x06, 0x14] ++
      [0x43, 0xee, 0xe7, 0x46, 0xb9, 0x92, 0x39, 0x55, 0x51, 0xc3, 0xd4, 0xf1, 0x2e, 0x78, 0x96, 0x0d])))) 0x100 32
    = some ([0x72, 0xde, 0xc6, 0x07, 0xd0, 0x14, 0xe3, 0xbc, 0xe3, 0xd1, 0x75, 0x1d] ++ [0x39, 0x68, 0x17, 0x4d, 0xdb, 0xc6, 0x77, 0x12, 0x3d, 0xdc, 0x1f, 0x51, 0x62, 0x3a, 0xf9, 0x92] ++ [0x2e, 0x78, 0x96, 0x0d]) := by decide +kernel

/-- V6.9. -/
theorem test_ks_derive : bufAfter (exec .ksDerive (withOps { OperandRegs.atReset with tc := 20000, seq := 42 } k16 [])) 0 28
    = some ([0x72, 0xde, 0xc6, 0x07, 0xd0, 0x14, 0xe3, 0xbc, 0xe3, 0xd1, 0x75, 0x1d] ++
      [0x39, 0x68, 0x17, 0x4d, 0xdb, 0xc6, 0x77, 0x12, 0x3d, 0xdc, 0x1f, 0x51, 0x62, 0x3a, 0xf9, 0x92]) := by decide +kernel

/-- V7.1. -/
theorem test_parse : resultOf (exec .parse { State.reset with
      regs := { OperandRegs.atReset with srcOff := 0x40, srcLen := 12 }, buf := bufWith 0x40 [0xff, 0xff] }) = some ⟨0, 1023, 0x4A, 2⟩ := by
  decide

/-- V7.4c. -/
theorem test_parse_too_short :
    reportOf (exec .parse { State.reset with regs := { OperandRegs.atReset with srcLen := 9 } }) = some (2, 0x03) := by decide

/-- V7.6. -/
theorem test_build : bufAfter (exec .build { State.reset with
      regs := { OperandRegs.atReset with seq := 1023, auxOff := 0x10, dstOff := 0x20 }
      buf := bufWith 0x10 [0xde, 0xad, 0xbe, 0xef] }) 0x20 10
    = some [0x03, 0xff, 0x00, 0x00, 0x00, 0x00, 0xde, 0xad, 0xbe, 0xef] := by decide

/-- V8.1, KL = 16. -/
theorem test_encrypt : bufAfter (exec .encrypt (withOps { OperandRegs.atReset with
      srcLen := 14, tc := 20000, seq := 42, dstOff := 0x40 } k16 (bufWith 0 [0x48, 0x65, 0x6c, 0x6c, 0x6f, 0x2c, 0x20, 0x48, 0x75, 0x62, 0x62, 0x6c, 0x65, 0x21]))) 0x40 24
    = some ([0x00, 0x2a, 0x00, 0x00, 0x00, 0x00, 0x01, 0x1e, 0x98, 0xd6] ++
      [0x5b, 0x58, 0x14, 0x5e, 0xda, 0x9d, 0x89, 0xc2, 0xd6, 0x41, 0x6a, 0xc6, 0x2a, 0x89]) := by decide +kernel

/-- The packet of V8.11 (TC = 0, SEQ = 0, no plaintext) at SRC_OFF = 0, to be opened at TC = 0 and TIME = 0. -/
def emptyPacket : State :=
  withOps { OperandRegs.atReset with srcLen := 10, window := 0 } k16 (bufWith 6 [0x98, 0x03, 0x23, 0x09])

/-- V8.11: the tag verifies at the counter 0. -/
theorem test_try_decrypt : tryDecrypt k16 (emptyPacket.buf.read 0 10) 0 = some ⟨[], 0, 0⟩ := by decide +kernel

/-- V8.11, one bit of the tag flipped. -/
theorem test_try_decrypt_refuses : tryDecrypt k16 [0, 0, 0, 0, 0, 0, 0x98, 0x03, 0x23, 0x08] 0 = none := by decide +kernel

theorem emptyPacket_src : emptyPacket.operands.srcBytes = emptyPacket.buf.read 0 10 := by decide
theorem emptyPacket_key : emptyPacket.operands.opKey = k16 := by decide
theorem emptyPacket_tc : emptyPacket.operands.regs.tc = 0 := by decide
theorem emptyPacket_candidates : candidates emptyPacket.operands.time emptyPacket.operands.regs.window.toNat = [0] := by decide

/-- V8.11: the one attempt at TC = 0 succeeds. -/
theorem emptyPacket_opens :
    tryDecrypt emptyPacket.operands.opKey emptyPacket.operands.srcBytes emptyPacket.operands.regs.tc = some ⟨[], 0, 0⟩ := by
  rw [emptyPacket_key, emptyPacket_src, emptyPacket_tc]
  exact test_try_decrypt

/-- V8.11: the search over the one candidate 0 succeeds. -/
theorem emptyPacket_found :
    search emptyPacket.operands.opKey emptyPacket.operands.srcBytes emptyPacket.operands.time
      emptyPacket.operands.regs.window.toNat = some ⟨[], 0, 0⟩ := by
  rw [search, emptyPacket_candidates, searchIn, emptyPacket_key, emptyPacket_src, test_try_decrypt]

/-- V8.11: DECRYPT_KNOWN reports success with MATCH = 1. -/
theorem test_decrypt_known : reportOf (exec .decryptKnown emptyPacket) = some (4, 0) := by
  have h : firstFailure (decryptKnownChecks emptyPacket.operands) = none := by decide
  simp only [exec, execDecryptKnown, h, emptyPacket_opens]
  rfl

/-- V8.11: DECRYPT reports success with MATCH = 1. -/
theorem test_decrypt : reportOf (exec .decrypt emptyPacket) = some (4, 0) := by
  have h : firstFailure (decryptChecks emptyPacket.operands) = none := by decide
  simp only [exec, execDecrypt, h, emptyPacket_found]
  rfl

/-- V8.12 to V8.14: a window that lies wholly below day 0 is exhausted. -/
theorem test_decrypt_exhausted :
    reportOf (exec .decrypt (withOps { OperandRegs.atReset with
      srcLen := 10, window := 0, timeLo := 0xFFFFFFFF, timeHi := 0xFFFFFFFF } k16 [])) = some (2, 0x05) := by decide

/-- V8.11: FIND_TC writes RES_TC and RES_SEQ, and RES_LEN stays. -/
theorem test_find_tc : resultOf (exec .findTc { emptyPacket with res := ⟨7, 7, 7, 7⟩ }) = some ⟨0, 0, 7, 7⟩ := by
  have ho : ({ emptyPacket with res := ⟨7, 7, 7, 7⟩ } : State).operands = emptyPacket.operands := by decide
  have h : firstFailure (findTcChecks emptyPacket.operands) = none := by decide
  simp only [exec, execFindTc, ho, h, emptyPacket_found]
  rfl

/-- V9: the last second of the last day. -/
theorem test_time2tc : resultOf (exec .time2tc { State.reset with
      regs := { OperandRegs.atReset with timeLo := 0xFFFFFFFF, timeHi := 0x0001517F } })
    = some ⟨0xFFFFFFFF, 0, 0, 0⟩ := by decide

/-- V9: TIME = -1 is out of range. -/
theorem test_time2tc_negative : reportOf (exec .time2tc { State.reset with
      regs := { OperandRegs.atReset with timeLo := 0xFFFFFFFF, timeHi := 0xFFFFFFFF } }) = some (2, 0x82) := by decide

/-- R61 and V10: an illegal word completes with IllegalCommand. -/
theorem test_illegal_word : reportOf (engineStep (started 0x110 [])) = some (2, 0x80) := by decide

/-- A table row's word, placed after reset, is what the next step runs. -/
theorem test_fetch_word : reportOf (step (State.reset.withFetchWord 32 0x0B)) = some (0, 0) ∧
    resultOf (step (State.reset.withFetchWord 32 0x0B)) = some ⟨0, 0, 0, 10⟩ := by decide

/-! ## Witnesses: a state and operands that meet the hypotheses of each statement, clause by clause -/

theorem test_witness_DecodeAndEncodeAgree :
    Instr.time2tc.wf = true ∧ decode 0x00000000 = .ok .nop ∧ decode 0x00000010 = .ok .time2tc := ⟨rfl, rfl, rfl⟩

theorem test_witness_RegisterMapAndOffsetsAgree :
    (regAt 0x000).wf = true ∧ (regAt 0xFFC).offset = 0xFFC ∧ (Reg.reserved 0xFFC).wf = true ∧ (Reg.key 7).wf = true ∧
    (Reg.bufWord 127).offset = 0x5FC := by decide

/-- The state on which CMD writes are witnessed: idle, with the write on its way. -/
def cmdOnItsWay (w : Word) : State := idleWith [writeAt 0x010 w, .engine]

theorem test_witness_CmdWriteStartsACommand : (cmdOnItsWay 0x0E).rstN = true ∧ (cmdOnItsWay 0x0E).busy = false ∧
    (cmdOnItsWay 0x0E).inputs = writeAt 0x010 0x0E :: [.engine] := ⟨rfl, rfl, rfl⟩

theorem test_witness_StepRunsTheStartedCommand :
    ((started 0x10 []).rstN = true ∧ (started 0x10 []).busy = true ∧ decode (started 0x10 []).cmd = .ok .time2tc ∧
      (started 0x10 []).inputs = []) ∧
    ((started 0x10 [.engine]).busy = true ∧ (started 0x10 [.engine]).inputs = .engine :: []) ∧
    (decode (started 0x11 []).cmd = .error .unassignedOpcode ∧ decode (started 0x100 [.engine]).cmd = .error .reservedBits) ∧
    (idleWith [.engine]).busy = false := by decide

theorem test_witness_IllegalWordCompletesWithIllegalCommand :
    (cmdOnItsWay 0x11).rstN = true ∧ (cmdOnItsWay 0x11).busy = false ∧
    (cmdOnItsWay 0x11).inputs = writeAt 0x010 0x11 :: .engine :: [] ∧ 0x10 < (0x11 : Word).toNat % 256 ∧
    (0x100 : Word).toNat / 256 ≠ 0 ∧ decode 0x10 = .ok .time2tc := by decide

theorem test_witness_NoCommandWritesOperandsOrKey :
    exec .nop (started 0 []) = .next (started 0 []).finished ∧ (512 : Nat) ≤ 512 := ⟨rfl, Nat.le_refl 512⟩

theorem test_witness_ErrorCompletionWritesNothingElse :
    (started 1 []).err = false ∧ (started 1 []).matched = false ∧
    exec .cmac (started 1 []) = .next ((started 1 []).failedWith 0x01) ∧ ((started 1 []).failedWith 0x01).err = true :=
  ⟨rfl, rfl, rfl, rfl⟩

theorem test_witness_ErrorsArePrecise :
    State.reset.rstN = true ∧ State.reset.busy = false ∧ State.reset.snap = none ∧ State.reset.inputs = [] ∧
    step { State.reset.startCommand 0x01 with wign := true } =
      .next ({ State.reset.startCommand 0x01 with wign := true }.failedWith 0x01) := ⟨rfl, rfl, rfl, rfl, rfl⟩

theorem test_witness_FirstFailingCheckDecidesTheError :
    (decode (started 0x11 []).cmd = .error .unassignedOpcode ∧ (started 0x11 []).inputs = []) ∧
    ruleError .cmac State.reset.operands = some 0x01 ∧
    ruleError .cmac (withOps { OperandRegs.atReset with dstOff := 497 } k16 []).operands = some 0x81 ∧
    ruleError .verify (withOps OperandRegs.atReset k16 []).operands = some 0x02 ∧
    ruleError .parse { State.reset.operands with regs := { OperandRegs.atReset with srcLen := 9 } } = some 0x03 ∧
    ruleError .time2tc { State.reset.operands with regs := { OperandRegs.atReset with timeHi := 0x00015180 } } = some 0x82 ∧
    (ruleError .nop State.reset.operands = none ∧ exec .nop State.reset = .next State.reset.finished) := by
  refine ⟨?_, ?_, ?_, ?_, ?_, ?_, ?_, rfl⟩ <;> decide

/-- The last input check passes, and the search is exhausted: the outcome of execution is the error. -/
theorem test_witness_FirstFailingCheckDecidesTheError_search :
    ruleError .decrypt (withOps { OperandRegs.atReset with
      srcLen := 10, window := 0, timeLo := 0xFFFFFFFF, timeHi := 0xFFFFFFFF } k16 []).operands = none := by decide

theorem test_witness_CommandsReportOnlyTheirCodes :
    (started 0 []).errcode = 0 ∧ exec .nop (started 0 []) = .next (started 0 []).finished := ⟨rfl, rfl⟩

theorem test_witness_WritesWhileBusy :
    (started 0 [writeAt 0x5FC 1]).rstN = true ∧ (started 0 [writeAt 0x5FC 1]).busy = true ∧
    (started 0 [writeAt 0x5FC 1]).inputs = writeAt 0x5FC 1 :: [] ∧
    (idleWith [writeAt 0x018 1]).rstN = true ∧ (idleWith [writeAt 0x018 1]).busy = false ∧
    (idleWith [writeAt 0x018 1]).inputs = writeAt 0x018 1 :: [] ∧
    (∀ off ∈ [0x010, 0x01C, 0x04C, 0x080, 0x09C, 0x400, 0x5FC], off % 4 = 0 ∧ off < 4096 ∧ lockedOffset off) ∧
    (∀ off ∈ [0x000, 0x014, 0x050, 0x07C, 0x0A0, 0x3FC, 0x600, 0xFFC],
      off % 4 = 0 ∧ off < 4096 ∧ ¬ lockedOffset off ∧ off ≠ 0x008 ∧ off ≠ 0x018) ∧
    ¬ lockedOffset 0x008 ∧ ¬ lockedOffset 0x018 ∧ (1 : Word).getLsbD 1 = false ∧ (2 : Word).getLsbD 1 = true := by
  refine ⟨rfl, rfl, rfl, rfl, rfl, rfl, ?_, ?_, ?_, ?_, ?_, ?_⟩ <;> simp [lockedOffset]

theorem test_witness_ConstantAndReservedOffsets :
    ∀ off ∈ [0x060, 0x07C, 0x0A0, 0x3FC, 0x600, 0xFFC], reservedOffset off ∧ regAt off = .reserved off := by
  unfold reservedOffset
  decide

theorem test_witness_OperandRegistersReadBackMasked :
    (Reg.keylen, 0x000000FF#32) ∈ operandMasks ∧ (Reg.ctr0, 0xFFFFFFFF#32) ∈ operandMasks ∧ State.reset.busy = false ∧
    (State.reset.hostWrite .seq 0x0000FFFF).readReg .seq = 0x000003FF := by decide

theorem test_witness_BufWordsAreLittleEndianLanes :
    regAt (0x400 + 4 * 0) = .bufWord 0 ∧ regAt (0x400 + 4 * 127) = .bufWord 127 ∧ State.reset.busy = false ∧
    State.reset.buf.wf = true := by decide

theorem test_witness_KeySlotIsWriteOnlyLanes :
    regAt (0x080 + 4 * 0) = .key 0 ∧ regAt (0x080 + 4 * 7) = .key 7 ∧ State.reset.busy = false ∧ (started 0 []).busy = true := by
  decide

theorem test_witness_ReadsChangeNothing :
    (started 0 [readAt 0xFFC]).rstN = true ∧ 0xFFC < 4096 ∧ 0xFFC % 4 = 0 ∧ producible (started 0 []).errcode = true ∧
    (started 0 [readAt 0xFFC]).inputs = readAt 0xFFC :: [] := by decide

theorem test_witness_KeySlotLeaksNothingThroughThePort :
    (idleWith [writeAt 0x080 5, readAt 0x080, writeAt 0x01C 16]).busy = false ∧
    (idleWith [writeAt 0x080 5, readAt 0x080, writeAt 0x01C 16]).snap = none ∧
    ∀ (a : BusAccess) (v : Word), .access a ∈ (idleWith [writeAt 0x080 5, readAt 0x080, writeAt 0x01C 16]).inputs →
      a.kind = .write v → a.offset ≠ 0x010 := by
  refine ⟨rfl, rfl, ?_⟩
  intro a v h _
  simp only [idleWith, writeAt, readAt, List.mem_cons, Event.access.injEq, List.not_mem_nil, or_false] at h
  rcases h with rfl | rfl | rfl <;> decide

theorem test_witness_OnlyAlignedWordAccessesAreTaken :
    (BusAccess.mk 8 0xFFC .read).width ≠ 32 ∧ (BusAccess.mk 32 4095 .read).offset % 4 ≠ 0 ∧
    (BusAccess.mk 32 4095 .read).offset < 4096 ∧ 4096 ≤ (BusAccess.mk 32 4096 .read).offset ∧
    (idleWith [.access ⟨32, 4095, .read⟩]).rstN = true ∧
    (idleWith [.access ⟨32, 4095, .read⟩]).inputs = .access ⟨32, 4095, .read⟩ :: [] := by decide

theorem test_witness_SoftResetIsAFullReset :
    (started 5 [writeAt 0x008 2]).rstN = true ∧ (2 : Word).getLsbD 1 = true ∧
    (started 5 [writeAt 0x008 2]).inputs = writeAt 0x008 2 :: [] ∧
    (started 5 [.resetPin false]).inputs = .resetPin false :: [] ∧
    ({ idleWith [.resetPin true] with rstN := false }).rstN = false ∧
    ({ idleWith [.resetPin true] with rstN := false }).inputs = .resetPin true :: [] := by decide

theorem test_witness_ResetStateOfEveryRegister :
    (State.powerOnReset false (started 5 [])).rstN = false ∧ (started 5 []).rstN = true := by decide

theorem test_witness_AccessesAreRefusedDuringReset :
    ({ idleWith [.access ⟨32, 4095, .read⟩] with rstN := false }).rstN = false ∧
    ({ idleWith [.access ⟨32, 4095, .read⟩] with rstN := false }).inputs = .access ⟨32, 4095, .read⟩ :: [] ∧
    ({ idleWith [.engine] with rstN := false }).inputs = .engine :: [] ∧
    (started 5 [.resetPin true]).rstN = true ∧ (started 5 [.resetPin true]).inputs = .resetPin true :: [] ∧
    (started 5 [.resetPin false, .resetPin true]).inputs = .resetPin false :: .resetPin true :: [] := by decide

theorem test_witness_IrqFollowsDoneAndEnable :
    exec .nop { started 0 [] with irqEn := true } = .next { started 0 [] with irqEn := true }.finished ∧
    { started 0 [] with irqEn := true }.finished.irq = true ∧
    (1 : Word).getLsbD 0 = true ∧ (2 : Word).getLsbD 0 = false ∧ State.reset.busy = false := ⟨rfl, rfl, rfl, rfl, rfl⟩

/-- A block with a command executing and nothing on its way meets the invariant. -/
theorem test_started_meets_invariant (w : Word) : (started w []).Inv where
  buf := ⟨rfl, rfl⟩
  snap := rfl
  busy := fun _ => ⟨rfl, rfl, rfl, rfl⟩
  err := ⟨by simp [started, State.startCommand], rfl⟩
  matchFlag := by simp [State.matchOk, started, State.startCommand]
  held := by simp [State.resetHeld, started, State.startCommand, State.reset]

theorem test_witness_EveryStepKeepsTheMachineInvariant :
    (started 0 []).Inv ∧ step (started 0 []) = .next (started 0 []).finished := ⟨test_started_meets_invariant 0, rfl⟩

theorem test_witness_NoRunReportsAReservedErrorCode : Reachable (idleWith [readAt 0x014]) := .reset [readAt 0x014]

theorem test_witness_WaitEndsAlikeForEveryLatency :
    (started 0 []).Inv ∧ (started 0 []).rstN = true ∧ (started 0 []).busy = true := ⟨test_started_meets_invariant 0, rfl, rfl⟩

theorem test_witness_CanonicalMemoriesThatReadAlikeAreEqual :
    Memory.wf [(0, 1), (511, 2)] = true ∧ Memory.wf (Memory.write [(511, 2)] 0 [1]) = true ∧
    ∀ a, Memory.readByte [(0, 1), (511, 2)] a = Memory.readByte (Memory.write [(511, 2)] 0 [1]) a := by
  refine ⟨rfl, rfl, fun a => rfl⟩

theorem test_witness_CmacChainsTheBlocks :
    m16.length = 16 * (0 + 1) ∧ (zeros 512).length = 16 * (31 + 1) ∧ ([] : Bytes).length = 0 ∧ (zeros 17).length % 16 ≠ 0 := by
  simp [m16]

theorem test_witness_CtrXorsTheCounterKeystream :
    (zeros 12 ++ be32 0xFFFFFFFF).length = 16 ∧ 0 < (zeros 512).length ∧ 511 < (zeros 512).length := by simp

theorem test_witness_TagComparisonIsEquality : (zeros 4).length = 4 ∧ [0x07#8, 0x0a, 0x16, 0xb5].length = 4 := by decide

theorem test_witness_DecimalStringsAreCanonical :
    0 < 2 ^ 32 ∧ 4294967295 < 2 ^ 32 ∧ (dec 0).head? = some 0x30 := by decide

theorem test_witness_KdfConcatenatesCounterBlocks : 0 < 17 ∧ 16 < 17 := by decide

theorem test_witness_DerivedLengthsAreFixed :
    k16.length = 16 ∧ (k16 ++ k16).length = 32 ∧ (started 0 []).errcode ≠ 0x06 ∧
    exec .nop (started 0 []) = .next (started 0 []).finished := ⟨rfl, rfl, by decide, rfl⟩

theorem test_witness_ParseUndoesBuild : (zeros 4).length = 4 := rfl

theorem test_witness_SequenceNumberDropsTheUpperBits : 8 ≤ (zeros 8).length ∧ 8 ≤ (zeros 510).length := by simp

theorem test_witness_SearchReturnsTheSmallestMatch :
    (0 : Word) ∈ candidates 0 0 ∧ tryDecrypt k16 (emptyPacket.buf.read 0 10) 0 = some ⟨[], 0, 0⟩ ∧
    ∀ d ∈ candidates 0 0, d.toNat < (0 : Word).toNat → tryDecrypt k16 (emptyPacket.buf.read 0 10) d = none :=
  ⟨by decide, test_try_decrypt, by simp⟩

theorem test_witness_SearchDecryptsWhatEncryptMade :
    k16.length = 16 ∧ ([] : Bytes).length ≤ 502 ∧ dayOf 0 - (0 : Nat) ≤ ((0 : Word).toNat : Int) ∧
    ((0 : Word).toNat : Int) ≤ dayOf 0 + (0 : Nat) ∧
    ∀ c ∈ candidates 0 0, c.toNat < (0 : Word).toNat → tryDecrypt k16 (encryptPacket k16 0 0 []) c = none :=
  ⟨rfl, by simp, by decide, by decide, by simp⟩

theorem test_witness_PayloadIsNotAuthenticated :
    (emptyPacket.buf.read 0 10).length = 10 ∧ ([] : Bytes).length = ([] : Bytes).length ∧
    tryDecrypt k16 (emptyPacket.buf.read 0 10 ++ []) 0 = some ⟨[], 0, 0⟩ := by
  refine ⟨by simp, rfl, ?_⟩
  rw [List.append_nil]
  exact test_try_decrypt

/-- A state on which every command that takes a message, a 4-byte or 12-byte AUX region and a DST region completes, each
region at the end of BUF where its length lets it. -/
def operandState : State :=
  withOps { OperandRegs.atReset with srcOff := 496, srcLen := 16, auxOff := 500, auxLen := 4, dstOff := 480, dstLen := 32 } k16 []

/-- What every completion statement of a command with a key asks of its state. -/
theorem test_operandState_is_legal : operandState.buf.wf = true ∧ KeyLegal operandState.operands ∧
    Fits operandState.operands.regs.srcOff operandState.operands.regs.srcLen.toNat := by
  refine ⟨rfl, .inl rfl, ?_⟩
  unfold Fits
  decide

theorem test_witness_CmacAndTagStoreTheMac :
    Fits operandState.operands.regs.dstOff 16 ∧ Fits operandState.operands.regs.dstOff 4 := by
  unfold Fits
  decide

theorem test_witness_VerifySetsMatchToTagEquality :
    Fits operandState.operands.regs.auxOff 4 ∧ operandState.operands.regs.auxLen = 4 := by
  unfold Fits
  decide

theorem test_witness_CtrStoresTheCipheredData :
    Fits operandState.operands.regs.auxOff 12 ∧
    Fits operandState.operands.regs.dstOff operandState.operands.regs.srcLen.toNat := by
  unfold Fits
  decide

theorem test_witness_KdfCommandsStoreDerivedBytes :
    Fits operandState.operands.regs.dstOff operandState.operands.regs.dstLen.toNat ∧
    Fits operandState.operands.regs.auxOff operandState.operands.regs.auxLen.toNat := by
  unfold Fits
  decide

theorem test_witness_KsStage1StoresTheFirstStage :
    Fits operandState.operands.regs.dstOff (2 * operandState.operands.regs.keylen.toNat) := by
  unfold Fits
  decide

/-- The state on which KS_STAGE2 is witnessed: 32 bytes at 480 for the source and 28 at 484 for the output. -/
def stage2State : State := withOps { OperandRegs.atReset with srcOff := 480, dstOff := 484 } k16 []

theorem test_witness_KsStage2StoresTheSecondStage :
    stage2State.buf.wf = true ∧ KeyLegal stage2State.operands ∧
    Fits stage2State.operands.regs.srcOff (2 * stage2State.operands.regs.keylen.toNat) ∧
    Fits stage2State.operands.regs.dstOff (12 + stage2State.operands.regs.keylen.toNat) := by
  refine ⟨rfl, .inl rfl, ?_, ?_⟩ <;> (unfold Fits; decide)

theorem test_witness_KsDeriveStoresTheWholeSchedule :
    stage2State.buf.wf = true ∧ KeyLegal stage2State.operands ∧
    Fits stage2State.operands.regs.dstOff (12 + stage2State.operands.regs.keylen.toNat) :=
  ⟨rfl, .inl rfl, test_witness_KsStage2StoresTheSecondStage.2.2.2⟩

/-- The output of the second stage at 0, across the end of what the first stage stored, and at the end of BUF. -/
theorem test_witness_StageCommandsComposeToKsDerive :
    operandState.snap = none ∧ operandState.buf.wf = true ∧ KeyLegal operandState.liveInputs ∧
    Fits operandState.regs.dstOff (2 * operandState.regs.keylen.toNat) ∧
    Fits 0 (12 + operandState.regs.keylen.toNat) ∧ Fits 470 (12 + operandState.regs.keylen.toNat) ∧
    Fits 484 (12 + operandState.regs.keylen.toNat) := by
  refine ⟨rfl, rfl, .inl rfl, ?_⟩
  unfold Fits
  decide

theorem test_witness_ParseLocatesThePayload :
    Fits emptyPacket.operands.regs.srcOff emptyPacket.operands.regs.srcLen.toNat ∧
    10 ≤ emptyPacket.operands.regs.srcLen.toNat := by
  unfold Fits
  decide

/-- The state on which BUILD and ENCRYPT are witnessed: 502 bytes of payload make a packet that fills BUF. -/
def fullPacketState : State := withOps { OperandRegs.atReset with srcOff := 10, srcLen := 502, auxOff := 508 } k16 []

theorem test_witness_BuildAndEncryptStoreThePacket :
    fullPacketState.buf.wf = true ∧ Fits fullPacketState.operands.regs.srcOff fullPacketState.operands.regs.srcLen.toNat ∧
    Fits fullPacketState.operands.regs.dstOff (fullPacketState.operands.regs.srcLen.toNat + 10) ∧
    Fits fullPacketState.operands.regs.auxOff 4 ∧ KeyLegal fullPacketState.operands := by
  refine ⟨rfl, ?_, ?_, ?_, .inl rfl⟩ <;> (unfold Fits; decide)

/-- What the packet of V8.11 meets: the checks of DECRYPT_KNOWN, DECRYPT and FIND_TC. -/
theorem test_emptyPacket_is_legal :
    emptyPacket.buf.wf = true ∧ KeyLegal emptyPacket.operands ∧
    Fits emptyPacket.operands.regs.dstOff (emptyPacket.operands.regs.srcLen.toNat - 10) := by
  refine ⟨rfl, .inl rfl, ?_⟩
  unfold Fits
  decide

/-- V8.11: the tag of the header of zeros at TC = 0, SEQ = 0. -/
theorem test_header_tag : (cmac (schedule k16 0 0).ek (zeros 6)).take 4 = [0x98, 0x03, 0x23, 0x09] := by decide +kernel

/-- Packets of 10 bytes, the shortest: one whose tag is the header's, and one with a bit of it flipped. -/
theorem test_witness_DecryptKnownOpensThePacketAtTc_attempt :
    (zeros 6 ++ [0x98, 0x03, 0x23, 0x09]).length = 10 ∧
    packetSeq (zeros 6 ++ [0x98, 0x03, 0x23, 0x09]) = 0 ∧ packetSeq (zeros 6 ++ [0x98, 0x03, 0x23, 0x08]) = 0 ∧
    (cmac (schedule k16 0 0).ek ((zeros 6 ++ [0x98, 0x03, 0x23, 0x09]).take 6)).take 4
      = ((zeros 6 ++ [0x98, 0x03, 0x23, 0x09]).drop 6).take 4 ∧
    (cmac (schedule k16 0 0).ek ((zeros 6 ++ [0x98, 0x03, 0x23, 0x08]).take 6)).take 4
      ≠ ((zeros 6 ++ [0x98, 0x03, 0x23, 0x08]).drop 6).take 4 := by
  have h (bs : Bytes) : (zeros 6 ++ bs).take 6 = zeros 6 := List.take_left' rfl
  refine ⟨rfl, by decide, by decide, ?_, ?_⟩ <;> rw [h, test_header_tag] <;> decide

theorem test_witness_DecryptKnownOpensThePacketAtTc :
    tryDecrypt emptyPacket.operands.opKey emptyPacket.operands.srcBytes emptyPacket.operands.regs.tc = some ⟨[], 0, 0⟩ ∧
    tryDecrypt k16 [0, 0, 0, 0, 0, 0, 0x98, 0x03, 0x23, 0x08] 0 = none := ⟨emptyPacket_opens, test_try_decrypt_refuses⟩

theorem test_witness_DecryptAndFindTcReturnTheSearch :
    search emptyPacket.operands.opKey emptyPacket.operands.srcBytes emptyPacket.operands.time
      emptyPacket.operands.regs.window.toNat = some ⟨[], 0, 0⟩ ∧
    search k16 (emptyPacket.buf.read 0 10) (-1) 0 = none := ⟨emptyPacket_found, by decide⟩

theorem test_witness_FindTcThenDecryptKnownIsDecrypt :
    emptyPacket.snap = none ∧ emptyPacket.err = false ∧ Fits emptyPacket.regs.dstOff (emptyPacket.regs.srcLen.toNat - 10) ∧
    ∃ t, exec .findTc emptyPacket = .next t ∧ t.err = false := by
  refine ⟨rfl, rfl, by unfold Fits; decide, ?_⟩
  have h : firstFailure (findTcChecks emptyPacket.operands) = none := by decide
  simp only [exec, execFindTc, h, emptyPacket_found]
  exact ⟨_, rfl, rfl⟩

theorem test_witness_Time2tcStoresTheDay :
    (0 : Int) ≤ State.reset.operands.time ∧ State.reset.operands.time < 371085174374400 ∧
    (371085174374400 : Int) ≤ ({ State.reset.operands with
      regs := { OperandRegs.atReset with timeHi := 0x00015180 } } : Snapshot).time := by decide

end Sys2Proof.Tests
end

section
/-! Rules of the register port: which register an offset names, and what a host write to a register does (R15, R145). -/

namespace Sys2Proof.Machine

/-! ## The register at an offset -/

theorem regAt_of_reservedOffset {off : Nat} (h : reservedOffset off) : regAt off = .reserved off := by
  unfold reservedOffset at h
  have hkey : ¬ (0x080 ≤ off ∧ off < 0x0A0) := by omega
  have hbuf : ¬ (0x400 ≤ off ∧ off < 0x600) := by omega
  rw [regAt, dif_neg hkey, dif_neg hbuf]
  split
  case h_25 => rfl
  all_goals omega

theorem regAt_key {i : Nat} (h : i < 8) : regAt (0x080 + 4 * i) = .key ⟨i, h⟩ := by
  rw [regAt, dif_pos (by omega)]
  congr 2
  omega

/-! ## Host writes -/

/-- While BUSY, a write to a BUSY-locked register only sets WIGN (R145). -/
theorem State.hostWrite_of_busy {s : State} {r : Reg} (v : Word) (hb : s.busy = true) (hl : busyLocked r = true) :
    s.hostWrite r v = { s with wign := true } := by
  simp [State.hostWrite, hb, hl]

/-- With BUSY = 0 a write reaches its register. -/
theorem State.hostWrite_of_idle {s : State} (r : Reg) (v : Word) (hb : s.busy = false) :
    s.hostWrite r v = s.writeReg r v := by
  simp [State.hostWrite, hb]

/-- A write to a register that is not BUSY-locked reaches it, whatever BUSY is. -/
theorem State.hostWrite_of_unlocked (s : State) {r : Reg} (v : Word) (hl : busyLocked r = false) :
    s.hostWrite r v = s.writeReg r v := by
  simp [State.hostWrite, hl]

@[simp] theorem State.hostWrite_id (s : State) (v : Word) : s.hostWrite .id v = s :=
  s.hostWrite_of_unlocked v rfl

@[simp] theorem State.hostWrite_version (s : State) (v : Word) : s.hostWrite .version v = s :=
  s.hostWrite_of_unlocked v rfl

@[simp] theorem State.hostWrite_reserved (s : State) (off : Nat) (v : Word) : s.hostWrite (.reserved off) v = s :=
  s.hostWrite_of_unlocked v rfl

theorem State.hostWrite_key_of_idle {s : State} (i : Fin 8) (v : Word) (hb : s.busy = false) :
    s.hostWrite (.key i) v = { s with key := s.key.set i.val v } :=
  State.hostWrite_of_idle (.key i) v hb

/-! ## The bytes of the KEY slot -/

theorem getElem?_lanes (w : Word) {j : Nat} (h : j < 4) : (lanes w)[j]? = some (w.extractLsb' (8 * j) 8) := by
  match j, h with
  | 0, _ | 1, _ | 2, _ | 3, _ => rfl

/-- Byte `a` of a row of words is lane `a % 4` of word `a / 4`. -/
theorem getElem?_flatMap_lanes (ws : List Word) (a : Nat) :
    (ws.flatMap lanes)[a]? = ws[a / 4]?.map (·.extractLsb' (8 * (a % 4)) 8) := by
  induction ws generalizing a with
  | nil => rfl
  | cons w ws ih =>
    rw [List.flatMap_cons]
    by_cases ha : a < 4
    · rw [List.getElem?_append_left ha, getElem?_lanes w ha, Nat.div_eq_of_lt ha, Nat.mod_eq_of_lt ha]
      rfl
    · obtain ⟨b, rfl⟩ : ∃ b, a = b + 4 := ⟨a - 4, by omega⟩
      rw [List.getElem?_append_right (by simp), length_lanes, Nat.add_sub_cancel, ih, Nat.add_mod_right,
        Nat.add_div_right b (by decide), List.getElem?_cons_succ]

/-- KEY[a] is lane `a % 4` of KEY word `a / 4` (R40, R49). -/
theorem getElem?_keyBytes (key : Vector Word 8) (a : Nat) :
    (keyBytes key)[a]? = key[a / 4]?.map (·.extractLsb' (8 * (a % 4)) 8) := by
  rw [keyBytes, getElem?_flatMap_lanes, Vector.getElem?_toList]

theorem getElem?_keyBytes_set_same (key : Vector Word 8) {i j : Nat} (v : Word) (hi : i < 8) (hj : j < 4) :
    (keyBytes (key.set i v))[4 * i + j]? = some (v.extractLsb' (8 * j) 8) := by
  have hword : (4 * i + j) / 4 = i := by omega
  have hlane : (4 * i + j) % 4 = j := by omega
  rw [getElem?_keyBytes, hword, hlane, Vector.getElem?_set_self hi]
  rfl

theorem getElem?_keyBytes_set_of_outside (key : Vector Word 8) {i a : Nat} (v : Word) (hi : i < 8)
    (ha : a < 4 * i ∨ 4 * i + 4 ≤ a) : (keyBytes (key.set i v))[a]? = (keyBytes key)[a]? := by
  have hword : i ≠ a / 4 := by omega
  rw [getElem?_keyBytes, getElem?_keyBytes, Vector.getElem?_set_ne hi hword]

/-- A KEY slot of zero words is 32 zero bytes (R139). -/
theorem keyBytes_replicate_zero : keyBytes (Vector.replicate 8 0) = zeros 32 := by decide

end Sys2Proof.Machine
end

section
/-! The statements about the constant and reserved offsets and about the KEY slot (R16, R17, R39, R40, R49). -/

namespace Sys2Proof.Machine

/-- Settles O15: such an offset names ID, VERSION or a reserved register, none of them BUSY-locked. -/
theorem constantAndReservedOffsets : Obligations.ConstantAndReservedOffsets := by
  refine ⟨fun _ => ⟨rfl, rfl⟩, fun s off h => ?_, fun s off v h => ?_⟩
  · rw [regAt_of_reservedOffset h]
    rfl
  · rcases h with rfl | rfl | h
    · exact s.hostWrite_id v
    · exact s.hostWrite_version v
    · rw [regAt_of_reservedOffset h]
      exact s.hostWrite_reserved off v

/-- Settles O18: the offset names KEY word i, and a write to it sets that word of the slot or is discarded. -/
theorem keySlotIsWriteOnlyLanes : Obligations.KeySlotIsWriteOnlyLanes := by
  refine ⟨fun s i hi => ?read, fun s i v hi hb => ?idle, fun s i v hi hb => ?busy, fun s => ?soft, ?reset, ?bytes⟩
  case read =>
    rw [regAt_key hi]
    rfl
  case idle =>
    rw [regAt_key hi, State.hostWrite_key_of_idle ⟨i, hi⟩ v hb]
    exact ⟨fun j hj => getElem?_keyBytes_set_same s.key v hi hj,
      fun a ha => getElem?_keyBytes_set_of_outside s.key v hi ha, rfl⟩
  case busy =>
    rw [regAt_key hi]
    exact State.hostWrite_of_busy v hb rfl
  case soft =>
    rw [State.softReset_eq, State.resetBlock_key]
    exact keyBytes_replicate_zero
  case reset => exact keyBytes_replicate_zero
  case bytes => decide

end Sys2Proof.Machine
end

section
/-! Rules of the BUF words of the register port: the lanes of a word, and what a word write stores (R48). -/

namespace Sys2Proof.Machine

theorem regAt_bufWord {i : Nat} (h : i < 128) : regAt (0x400 + 4 * i) = .bufWord ⟨i, h⟩ := by
  rw [regAt, dif_neg (by omega), dif_pos (by omega)]
  congr 2
  omega

theorem State.hostWrite_bufWord_of_idle {s : State} (i : Fin 128) (v : Word) (hb : s.busy = false) :
    s.hostWrite (.bufWord i) v = { s with buf := s.buf.write (4 * i.val) (lanes v) } :=
  State.hostWrite_of_idle (.bufWord i) v hb

theorem getElem_lanes (w : Word) {j : Nat} (h : j < (lanes w).length) : (lanes w)[j] = w.extractLsb' (8 * j) 8 :=
  (List.getElem_eq_iff h).mpr (getElem?_lanes w h)

/-- The lanes of BUF word i are the string of its four bytes. -/
theorem Memory.lanes_word (m : Memory) (i : Nat) : lanes (m.word i) = m.read (4 * i) 4 :=
  lanes_wordOfLanes _ _ _ _

theorem Memory.extractLsb'_word (m : Memory) (i : Nat) {j : Nat} (h : j < 4) :
    (m.word i).extractLsb' (8 * j) 8 = m.readByte (4 * i + j) := by
  rw [← getElem_lanes (m.word i) h]
  simp only [Memory.lanes_word, Memory.getElem_read]

/-- A word just stored reads back lane by lane. -/
theorem Memory.readByte_write_lanes {m : Memory} (off : Nat) (v : Word) {j : Nat} (hj : j < 4) (hm : m.wf = true) :
    (m.write off (lanes v)).readByte (off + j) = v.extractLsb' (8 * j) 8 := by
  rw [Memory.readByte_write_of_inside off (lanes v) j hj hm, getElem_lanes v hj]

end Sys2Proof.Machine
end

section
/-! The statement about the host's view of BUF (R48). -/

namespace Sys2Proof.Machine

/-- Settles O17: the offset names BUF word i, whose lanes are the four bytes at 4i, and a write to it with BUSY = 0 stores the
value's lanes there. -/
theorem bufWordsAreLittleEndianLanes : Obligations.BufWordsAreLittleEndianLanes := by
  refine ⟨fun s i hi j hj => ?read, fun s i v hi hb hm => ?write, ?bytes⟩
  case read =>
    rw [regAt_bufWord hi]
    exact s.buf.extractLsb'_word i hj
  case write =>
    rw [regAt_bufWord hi, State.hostWrite_bufWord_of_idle ⟨i, hi⟩ v hb]
    exact ⟨fun j hj => Memory.readByte_write_lanes (4 * i) v hj hm,
      fun a ha => s.buf.readByte_write_of_outside (lanes v) ha, rfl⟩
  case bytes => decide

end Sys2Proof.Machine
end

section
/-! Rules of the decoder: its fields as arithmetic on the word, and the opcode map as the pairs of R60 (R59 to R61). -/

namespace Sys2Proof

open Sys2Proof.Machine (opcodeMap)

theorem toNat_opcodeField (w : Word) : (opcodeField w).toNat = w.toNat % 256 := by
  simp [opcodeField]

theorem toNat_rsvdField (w : Word) : (rsvdField w).toNat = w.toNat / 256 := by
  have hfits : w.toNat / 256 < 2 ^ 24 := by have := w.isLt; omega
  rw [rsvdField, BitVec.extractLsb'_toNat, Nat.shiftRight_eq_div_pow, Nat.mod_eq_of_lt hfits]

theorem rsvdField_eq_zero_iff (w : Word) : rsvdField w = 0 ↔ w.toNat / 256 = 0 := by
  rw [← toNat_rsvdField]
  exact BitVec.toNat_inj.symm

theorem instrOfOpcode_of_mem : ∀ p ∈ opcodeMap, instrOfOpcode p.1 = some p.2 := by decide

theorem mem_opcodeMap_of_instrOfOpcode {n : Nat} {i : Instr} (h : instrOfOpcode n = some i) : (n, i) ∈ opcodeMap := by
  unfold instrOfOpcode at h
  split at h
  all_goals cases h
  all_goals decide

theorem instrOfOpcode_eq_some_iff (n : Nat) (i : Instr) : instrOfOpcode n = some i ↔ (n, i) ∈ opcodeMap :=
  ⟨mem_opcodeMap_of_instrOfOpcode, instrOfOpcode_of_mem (n, i)⟩

theorem opcode_le_of_mem : ∀ p ∈ opcodeMap, p.1 ≤ 0x10 := by decide

theorem exists_mem_opcodeMap_of_le : ∀ n ≤ 0x10, ∃ p ∈ opcodeMap, p.1 = n := by decide

/-- The opcode map has no gap: its numbers are those up to 0x10 (R60, R61). -/
theorem exists_mem_opcodeMap_iff (n : Nat) : (∃ i, (n, i) ∈ opcodeMap) ↔ n ≤ 0x10 := by
  refine ⟨fun ⟨i, hi⟩ => opcode_le_of_mem (n, i) hi, fun hn => ?_⟩
  obtain ⟨⟨_, i⟩, hi, rfl⟩ := exists_mem_opcodeMap_of_le n hn
  exact ⟨i, hi⟩

theorem decode_eq_ok_iff (w : Word) (i : Instr) :
    decode w = .ok i ↔ rsvdField w = 0 ∧ instrOfOpcode (opcodeField w).toNat = some i := by
  unfold decode
  by_cases hr : rsvdField w = 0
  · rw [if_pos hr]
    cases instrOfOpcode (opcodeField w).toNat <;> simp [hr]
  · rw [if_neg hr]
    exact ⟨nofun, fun h => absurd h.1 hr⟩

/-- A word that is no command is refused with a reason (R61). -/
theorem exists_decode_eq_error {w : Word} (h : ¬ ∃ i, decode w = .ok i) : ∃ e, decode w = .error e := by
  cases hd : decode w with
  | ok i => exact absurd ⟨i, hd⟩ h
  | error e => exact ⟨e, rfl⟩

end Sys2Proof
end

section
/-! Rules of the lifecycle of a command: a write that the port takes, the write that starts a command, the engine's turn on an
illegal word, an error completion, and runs of several steps (R50, R61, R63, R65, R69). -/

namespace Sys2Proof.Machine

/-! ## Steps -/

/-- A step that takes a legal write: it reaches its register and is acknowledged (R50, R145). -/
theorem step_of_writeAt {s : State} {off : Nat} {v : Word} {rest : List Event} (hr : s.rstN = true)
    (hoff : off < Config.regWindow) (hal : off % 4 = 0) (hi : s.inputs = writeAt off v :: rest) :
    step s = .next { State.hostWrite (regAt off) v { s with inputs := rest } with port := .ack } := by
  rw [step, hi]
  simp [writeAt, State.takeAccess, State.busCycle, BusAccess.inWindow, BusAccess.widthOk, BusAccess.aligned, readsErrcode,
    hoff, hal, hr]

theorem step_of_engine {s : State} {rest : List Event} (hi : s.inputs = .engine :: rest) :
    step s = engineStep { s with inputs := rest } := by
  rw [step, hi]

theorem runFor_succ_of_step {s t : State} (n : Nat) (h : step s = .next t) : runFor (n + 1) s = runFor n t := by
  have hcore : Sys2Proof.core.step s = .next t := h
  simp only [runFor, Host.Core.run, hcore] <;> rfl

/-! ## The start of a command -/

theorem regAt_cmd : regAt 0x010 = .cmd := rfl

theorem State.hostWrite_cmd_of_idle {s : State} (w : Word) (hb : s.busy = false) :
    s.hostWrite .cmd w = s.startCommand w :=
  State.hostWrite_of_idle .cmd w hb

/-! ## The error completion -/

/-- An error completion is the state with ERRCODE, ERR, BUSY, DONE and the snapshot replaced (R69). -/
theorem State.raiseError_eq_failedWith (e : ErrorCode) (s : State) : s.raiseError e = s.failedWith e.code := rfl

/-- No error has the code of success (R122). -/
theorem ErrorCode.code_ne_zero (e : ErrorCode) : e.code ≠ 0 := by
  cases e <;> decide

/-- The engine's turn on an illegal word is an error completion with IllegalCommand (R61). -/
theorem engineStep_of_illegal {s : State} {e : DecodeError} (hr : s.rstN = true) (hb : s.busy = true)
    (hd : decode s.cmd = .error e) : engineStep s = .next (s.failedWith 0x80) := by
  simp only [engineStep, hr, hb, hd, Bool.and_self, if_true]
  rfl

theorem step_of_engine_of_illegal {s : State} {e : DecodeError} {rest : List Event} (hr : s.rstN = true)
    (hb : s.busy = true) (hd : decode s.cmd = .error e) (hi : s.inputs = .engine :: rest) :
    step s = .next ({ s with inputs := rest }.failedWith 0x80) :=
  (step_of_engine hi).trans (engineStep_of_illegal hr hb hd)

end Sys2Proof.Machine
end

section
/-! The statements about command words, the start of a command and its error completion (R60, R61, R63, R65, R69). -/

namespace Sys2Proof.Machine

/-- Settles O1: the decoder asks for RSVD = 0 and looks OPCODE up, and its lookup is membership in the map. -/
theorem wordSelectsExactlyTheMappedCommand : Obligations.WordSelectsExactlyTheMappedCommand := by
  intro w i
  rw [decode_eq_ok_iff, rsvdField_eq_zero_iff, toNat_opcodeField, instrOfOpcode_eq_some_iff]

/-- Settles O5: offset 0x010 names CMD, and with BUSY = 0 a write to CMD starts a command. -/
theorem cmdWriteStartsACommand : Obligations.CmdWriteStartsACommand := by
  intro s w rest hr hb hi
  have hstart := State.hostWrite_cmd_of_idle (s := { s with inputs := rest }) w hb
  rw [step_of_writeAt hr (by decide) (by decide) hi, regAt_cmd, hstart]
  rfl

/-- Settles O7: the map's numbers have no gap, so an illegal word does not decode; the CMD write starts it and the engine's
turn ends it with an error completion. -/
theorem illegalWordCompletesWithIllegalCommand : Obligations.IllegalWordCompletesWithIllegalCommand := by
  have hlegal (w : Word) : (∃ i, decode w = .ok i) ↔ w.toNat / 256 = 0 ∧ w.toNat % 256 ≤ 0x10 := by
    rw [exists_congr (wordSelectsExactlyTheMappedCommand w), exists_and_left, exists_mem_opcodeMap_iff]
  refine ⟨hlegal, fun s w rest hw hr hb hi => ?_⟩
  obtain ⟨e, hd⟩ : ∃ e, decode w = .error e :=
    exists_decode_eq_error (by rw [hlegal]; omega)
  rw [runFor_succ_of_step 1 (cmdWriteStartsACommand s w (.engine :: rest) hr hb hi)]
  exact runFor_succ_of_step 0 (step_of_engine_of_illegal hr rfl hd rfl)

/-- Settles O10: a command ends in an error completion, which has this form, or in a commit, which leaves ERR at 0. -/
theorem errorCompletionWritesNothingElse : Obligations.ErrorCompletionWritesNothingElse := by
  intro i s t herr hmatched hexec hterr
  rcases exec_ends i s with ⟨e, _, he⟩ | ⟨c, _, hc⟩
  · obtain rfl : s.raiseError e = t := Host.Outcome.next.inj (he.symm.trans hexec)
    exact ⟨e.code_ne_zero, hmatched, s.raiseError_eq_failedWith e⟩
  · obtain rfl : s.commit c = t := Host.Outcome.next.inj (hc.symm.trans hexec)
    rw [State.commit_err, herr] at hterr
    contradiction

end Sys2Proof.Machine
end

section
/-! Rules of byte strings: the value of a big-endian string, and slices (R7). -/

namespace Sys2Proof.Machine

theorem foldl_intBe (s : Bytes) (a : Nat) :
    s.foldl (fun acc b => 256 * acc + b.toNat) a = a * 256 ^ s.length + intBe s := by
  induction s generalizing a with
  | nil => simp [intBe]
  | cons b s ih =>
    have hcons : intBe (b :: s) = (256 * 0 + b.toNat) * 256 ^ s.length + intBe s := ih _
    rw [List.foldl_cons, ih, hcons, List.length_cons]
    ring

/-- The first byte of a string is its most significant one. -/
theorem intBe_cons (b : Byte) (s : Bytes) : intBe (b :: s) = b.toNat * 256 ^ s.length + intBe s := by
  rw [intBe, List.foldl_cons, foldl_intBe, Nat.mul_zero, Nat.zero_add]

theorem intBe_lt (s : Bytes) : intBe s < 256 ^ s.length := by
  induction s with
  | nil => decide
  | cons b s ih =>
    calc intBe (b :: s) = b.toNat * 256 ^ s.length + intBe s := intBe_cons b s
      _ < (b.toNat + 1) * 256 ^ s.length := by rw [Nat.succ_mul]; omega
      _ ≤ 256 ^ (s.length + 1) := by rw [Nat.pow_succ']; exact Nat.mul_le_mul_right _ b.isLt

/-- The n-byte encoding of a value keeps the value modulo 256^n. -/
theorem intBe_be (n v : Nat) : intBe (be n v) = v % 256 ^ n := by
  induction n with
  | zero => rw [Nat.pow_zero, Nat.mod_one]; rfl
  | succ n ih =>
    have hbyte : (BitVec.ofNat 8 (v / 256 ^ n)).toNat = v / 256 ^ n % 256 := BitVec.toNat_ofNat _ 8
    rw [be, intBe_cons, length_be, ih, hbyte, Nat.mod_pow_succ, Nat.mul_comm, Nat.add_comm]

theorem intBe_be128 {v : Nat} (h : v < 2 ^ 128) : intBe (be128 v) = v :=
  (intBe_be 16 v).trans (Nat.mod_eq_of_lt h)

theorem slice_drop (s : Bytes) (k a b : Nat) : slice (s.drop k) a b = slice s (a + k) (b + k) := by
  rw [slice, slice, List.drop_drop, Nat.add_comm k a, Nat.add_sub_add_right]

end Sys2Proof.Machine
end

section
/-! Rules of the primitives: the doubling of a block, the chain of CMAC and its last block, and the keystream (R79, R80, R82). -/

namespace Sys2Proof.Machine

/-! ## Blocks as byte strings -/

/-- A 16-byte string is the string of its block (R74). -/
theorem bytes_ofBytes {s : Bytes} (h : s.length = 16) : (Block.ofBytes s).bytes = s := by
  refine List.ext_getElem h.symm fun i hi hs => ?_
  rw [length_block_bytes] at hi
  rw [← List.getD_eq_getElem s 0 hs]
  interval_cases i <;> rfl

/-- The first bit of a block is the bit of weight 2^127 of its value. -/
theorem getLsbD_firstByte (x : Block) : x.c0.b0.getLsbD 7 = decide (2 ^ 127 ≤ intBe x.bytes) := by
  obtain ⟨rest, hbytes, hlen⟩ : ∃ rest, x.bytes = x.c0.b0 :: rest ∧ rest.length = 15 := ⟨_, rfl, rfl⟩
  have hvalue := intBe_cons x.c0.b0 rest
  have hrest := intBe_lt rest
  have hmsb : x.c0.b0.getLsbD 7 = decide (2 ^ 7 ≤ x.c0.b0.toNat) := BitVec.msb_eq_decide x.c0.b0
  rw [hlen] at hvalue hrest
  rw [hmsb, hbytes, decide_eq_decide]
  omega

/-! ## Doubling -/

theorem dbl_eq (x : Block) : dbl x = Block.ofBytes (be128
    ((2 * intBe x.bytes) % 2 ^ 128 ^^^ (if 2 ^ 127 ≤ intBe x.bytes then 0x87 else 0))) := by
  simp only [dbl, getLsbD_firstByte, Nat.shiftLeft_eq, Nat.pow_one, Nat.mul_comm _ 2, decide_eq_true_eq]

/-- Adding the constant of R79 does not leave the 128 bits. -/
theorem intBe_dbl (x : Block) : intBe (dbl x).bytes =
    (2 * intBe x.bytes) % 2 ^ 128 ^^^ (if 2 ^ 127 ≤ intBe x.bytes then 0x87 else 0) := by
  have hshift : (2 * intBe x.bytes) % 2 ^ 128 < 2 ^ 128 := Nat.mod_lt _ (by decide)
  have hconst : (if 2 ^ 127 ≤ intBe x.bytes then 0x87 else 0) < 2 ^ 128 := by split <;> decide
  rw [dbl_eq, bytes_ofBytes (length_be128 _), intBe_be128 (Nat.xor_lt_two_pow hshift hconst)]

/-! ## CMAC -/

/-- The chain takes block i of the message at its turn i (R80). -/
theorem cbcChain_eq_foldl (key : Bytes) (n : Nat) (m : Bytes) (x : Block) :
    cbcChain key n m x = (List.range n).foldl
      (fun x i => aesEncrypt key (x.xor (Block.ofBytes (slice m (16 * i) (16 * i + 16))))) x := by
  induction n generalizing m x with
  | zero => rfl
  | succ n ih =>
    rw [cbcChain, ih, List.range_succ_eq_map, List.foldl_cons, List.foldl_map]
    simp only [slice_drop]
    rfl

/-- A message of whole blocks, at least one: the last block is masked with K1 (R80). -/
theorem cmacBlock_of_whole (key : Bytes) {m : Bytes} {n : Nat} (h : m.length = 16 * (n + 1)) :
    cmacBlock key m = aesEncrypt key ((cbcChain key n m Block.zero).xor
      ((Block.ofBytes (slice m (16 * n) (16 * n + 16))).xor (subkey1 key))) := by
  have hblocks : blocksOf m.length = n + 1 := by rw [blocksOf]; omega
  have hcomplete : (m.length % 16 == 0) = true := by rw [beq_iff_eq]; omega
  simp only [cmacBlock, lastBlock, hblocks, hcomplete, Nat.succ_ne_zero, if_false, if_true, Nat.add_sub_cancel]
  rw [h, Nat.mul_succ]

/-- A message that is empty or ends inside a block: the last block is padded and masked with K2 (R80). -/
theorem cmacBlock_of_notWhole (key : Bytes) {m : Bytes} (h : m.length = 0 ∨ m.length % 16 ≠ 0) :
    cmacBlock key m = aesEncrypt key ((cbcChain key (m.length / 16) m Block.zero).xor
      ((Block.ofBytes (slice m (16 * (m.length / 16)) m.length ++ [0x80] ++ zeros (15 - m.length % 16))).xor
        (subkey2 key))) := by
  have hblocks : (if blocksOf m.length = 0 then 1 else blocksOf m.length) = m.length / 16 + 1 := by
    rw [blocksOf]; split <;> omega
  have hcomplete : (if blocksOf m.length = 0 then false else m.length % 16 == 0) = false := by
    rw [blocksOf]; split
    · rfl
    · rw [beq_eq_false_iff_ne]; omega
  have hlast : (slice m (16 * (m.length / 16)) m.length).length = m.length % 16 := by
    rw [length_slice_of_le m le_rfl]; omega
  simp only [cmacBlock, lastBlock, hblocks, hcomplete, Nat.add_sub_cancel, hlast, Bool.false_eq_true, if_false]

/-! ## The keystream -/

/-- Byte j of the keystream is byte j mod 16 of the block of the counter j / 16 further on (R82). -/
theorem getElem?_keystream (key : Bytes) {n j : Nat} (c : Nat) (h : j < 16 * n) :
    (keystream key n c)[j]? = some
      ((aesEncrypt key (Block.ofBytes (be128 ((c + j / 16) % 2 ^ 128)))).bytes.getD (j % 16) 0) := by
  induction n generalizing c j with
  | zero => omega
  | succ n ih =>
    rw [keystream]
    by_cases hj : j < 16
    · rw [List.getElem?_append_left hj, Nat.div_eq_of_lt hj, Nat.mod_eq_of_lt hj, Nat.add_zero,
        List.getD_eq_getElem _ 0 hj]
      exact List.getElem?_eq_getElem hj
    · obtain ⟨k, rfl⟩ : ∃ k, j = k + 16 := ⟨j - 16, by omega⟩
      rw [List.getElem?_append_right (by simp), length_block_bytes, Nat.add_sub_cancel, ih (c + 1) (by omega),
        Nat.add_mod_right, Nat.add_div_right k (by decide), Nat.add_right_comm, Nat.add_assoc]

theorem getElem?_xorBytes {x y : Bytes} {j : Nat} {a b : Byte} (hx : x[j]? = some a) (hy : y[j]? = some b) :
    (xorBytes x y)[j]? = some (a ^^^ b) := by
  rw [xorBytes, List.getElem?_zipWith, hx, hy]

theorem ctrCipher_ctrCipher (key cb0 data : Bytes) : ctrCipher key cb0 (ctrCipher key cb0 data) = data := by
  rw [ctrCipher, length_ctrCipher]
  exact xorBytes_self_cancel data _ (by rw [length_keystream]; exact le_blocksOf data.length)

end Sys2Proof.Machine
end

section
/-! The statements about the CMAC subkeys, CMAC and CTR (R79, R80, R82). -/

namespace Sys2Proof.Machine

/-- Settles O32: the doubling on the blocks' values; the subkeys are doublings by their definitions. -/
theorem subkeysAreDoublings : Obligations.SubkeysAreDoublings :=
  ⟨intBe_dbl, fun _ => ⟨rfl, rfl⟩⟩

/-- Settles O33: a message is a positive number of whole blocks, or it is not, and the chain takes the blocks in order. -/
theorem cmacChainsTheBlocks : Obligations.CmacChainsTheBlocks := by
  refine fun key m => ⟨fun n h => ?whole, fun h => ?notWhole⟩
  case whole => rw [cmac, cmacBlock_of_whole key h, cbcChain_eq_foldl]
  case notWhole => rw [cmac, cmacBlock_of_notWhole key h, cbcChain_eq_foldl]

/-- Settles O34: CTR is the data XOR the keystream, whose blocks cover the data. -/
theorem ctrXorsTheCounterKeystream : Obligations.CtrXorsTheCounterKeystream := by
  refine ⟨fun key cb0 data _ => ⟨length_ctrCipher key cb0 data, fun j h => ?byte⟩,
    fun key cb0 data _ => ctrCipher_ctrCipher key cb0 data⟩
  case byte =>
    have hcover : j < 16 * blocksOf data.length := h.trans_le (le_blocksOf data.length)
    exact getElem?_xorBytes (List.getElem?_eq_getElem h) (getElem?_keystream key (intBe cb0) hcover)

end Sys2Proof.Machine
end

section
/-! Rules of the decimal strings: `dec(n)` is the ASCII image of the base-10 digits of n, most significant first (R88). -/

namespace Sys2Proof.Machine

/-- The ASCII byte of a decimal digit (R88). -/
def asciiDigit (k : Nat) : Byte := BitVec.ofNat 8 (0x30 + k)

theorem toNat_asciiDigit {k : Nat} (h : k < 10) : (asciiDigit k).toNat = 0x30 + k :=
  (BitVec.toNat_ofNat _ 8).trans (Nat.mod_eq_of_lt (by omega))

theorem asciiDigit_ne_zeroDigit {k : Nat} (h : k < 10) (h0 : k ≠ 0) : asciiDigit k ≠ 0x30 := by
  intro heq
  have hvalue : 0x30 + k = 0x30 := (toNat_asciiDigit h).symm.trans (congrArg BitVec.toNat heq)
  omega

/-- With enough fuel the digits that `decDigits` puts in front are those of the library, which come least significant first. -/
theorem decDigits_eq_digits {fuel n : Nat} (tail : Bytes) (h0 : 0 < n) (h : n < 10 ^ fuel) :
    decDigits fuel n tail = (Nat.digits 10 n).reverse.map asciiDigit ++ tail := by
  induction fuel generalizing n tail with
  | zero => rw [Nat.pow_zero] at h; omega
  | succ fuel ih =>
    have hdigits : Nat.digits 10 n = n % 10 :: Nat.digits 10 (n / 10) := Nat.digits_def' (by decide) h0
    rw [decDigits, hdigits, List.reverse_cons, List.map_append, List.append_assoc]
    by_cases hlast : n / 10 = 0
    · rw [if_pos hlast, hlast, Nat.digits_zero]
      rfl
    · rw [if_neg hlast, ih _ (Nat.pos_of_ne_zero hlast) (by rw [Nat.pow_succ] at h; omega)]
      rfl

theorem dec_zero : dec 0 = [0x30] := rfl

theorem dec_eq_digits {n : Nat} (h0 : 0 < n) (h : n < 10 ^ 10) :
    dec n = (Nat.digits 10 n).reverse.map asciiDigit := by
  rw [dec, decDigits_eq_digits [] h0 h, List.append_nil]

theorem length_dec_pos {n : Nat} (h0 : 0 < n) (h : n < 10 ^ 10) : 0 < (dec n).length := by
  rw [dec_eq_digits h0 h, List.length_map, List.length_reverse, List.length_pos_iff, Nat.digits_ne_nil_iff_ne_zero]
  exact h0.ne'

theorem length_dec_le {n : Nat} (h0 : 0 < n) (h : n < 10 ^ 10) : (dec n).length ≤ 10 := by
  rw [dec_eq_digits h0 h, List.length_map, List.length_reverse, Nat.digits_length_le_iff (by decide)]
  exact h

theorem toNat_of_mem_dec {n : Nat} (h0 : 0 < n) (h : n < 10 ^ 10) {d : Byte} (hd : d ∈ dec n) :
    0x30 ≤ d.toNat ∧ d.toNat ≤ 0x39 := by
  rw [dec_eq_digits h0 h, List.mem_map] at hd
  obtain ⟨k, hk, rfl⟩ := hd
  have hk10 : k < 10 := Nat.digits_lt_base (by decide) (List.mem_reverse.mp hk)
  rw [toNat_asciiDigit hk10]
  omega

/-- Reading ASCII digits most significant first gives the number that the digits stand for. -/
theorem foldl_asciiDigits {ds : List Nat} (h : ∀ k ∈ ds, k < 10) :
    (ds.reverse.map asciiDigit).foldl (fun v d => 10 * v + (d.toNat - 0x30)) 0 = Nat.ofDigits 10 ds := by
  induction ds with
  | nil => rfl
  | cons k ds ih =>
    obtain ⟨hk, hds⟩ := List.forall_mem_cons.mp h
    have hvalue : (asciiDigit k).toNat - 0x30 = k := by rw [toNat_asciiDigit hk, Nat.add_sub_cancel_left]
    rw [List.reverse_cons, List.map_append, List.foldl_append, ih hds, Nat.ofDigits_cons, Nat.add_comm]
    exact congrArg (10 * Nat.ofDigits 10 ds + ·) hvalue

theorem foldl_dec {n : Nat} (h0 : 0 < n) (h : n < 10 ^ 10) :
    (dec n).foldl (fun v d => 10 * v + (d.toNat - 0x30)) 0 = n := by
  rw [dec_eq_digits h0 h, foldl_asciiDigits fun _ hk => Nat.digits_lt_base (by decide) hk, Nat.ofDigits_digits]

/-- A positive number has no leading zero. -/
theorem head?_dec_ne {n : Nat} (h0 : 0 < n) (h : n < 10 ^ 10) : (dec n).head? ≠ some 0x30 := by
  have hne : Nat.digits 10 n ≠ [] := Nat.digits_ne_nil_iff_ne_zero.mpr h0.ne'
  have hlast : (Nat.digits 10 n).getLast hne < 10 := Nat.digits_lt_base (by decide) (List.getLast_mem hne)
  rw [dec_eq_digits h0 h, List.head?_map, List.head?_reverse, List.getLast?_eq_some_getLast hne, Option.map_some]
  exact fun heq => asciiDigit_ne_zeroDigit hlast (Nat.getLast_digit_ne_zero 10 h0.ne') (Option.some.inj heq)

end Sys2Proof.Machine
end

section
/-! Rules of the KDF: a byte of a slice, and a byte of the counter blocks (R7, R91). -/

namespace Sys2Proof.Machine

theorem getElem?_slice (s : Bytes) {a b j : Nat} (h : j < b - a) : (slice s a b)[j]? = s[a + j]? := by
  rw [slice, List.getElem?_take_of_lt h, List.getElem?_drop]

/-- Byte j of the blocks from counter i on is byte j mod 16 of the block of the counter j / 16 further on (R91). -/
theorem getElem?_kdfBlocks (key fixed : Bytes) {count j : Nat} (i : Nat) (h : j < 16 * count) :
    (kdfBlocks key fixed count i)[j]? = (cmac key (be32 (j / 16 + i) ++ fixed))[j % 16]? := by
  induction count generalizing i j with
  | zero => omega
  | succ count ih =>
    rw [kdfBlocks]
    by_cases hj : j < 16
    · rw [List.getElem?_append_left hj, Nat.div_eq_of_lt hj, Nat.mod_eq_of_lt hj, Nat.zero_add]
    · obtain ⟨k, rfl⟩ : ∃ k, j = k + 16 := ⟨j - 16, by omega⟩
      rw [List.getElem?_append_right (by simp), length_cmac, Nat.add_sub_cancel, ih (i + 1) (by omega),
        Nat.add_mod_right, Nat.add_div_right k (by decide), Nat.succ_add_eq_add_succ]

theorem getElem?_kdf (key lab ctx : Bytes) {n j : Nat} (h : j < n) :
    (kdf key lab ctx n)[j]? = (cmac key (be32 (j / 16 + 1) ++ fixedInput lab ctx n))[j % 16]? := by
  have hcover : j < 16 * blocksOf n := h.trans_le (le_blocksOf n)
  rw [kdf, getElem?_slice _ h, Nat.zero_add, getElem?_kdfBlocks _ _ 1 hcover]

end Sys2Proof.Machine
end

section
/-! The statements about the decimal strings and the KDF (R88, R91). -/

namespace Sys2Proof.Machine

/-- Settles O36: a 32-bit number is 0, whose string is "0", or is positive and has at most ten digits. -/
theorem decimalStringsAreCanonical : Obligations.DecimalStringsAreCanonical := by
  refine ⟨fun n hn => ?canonical, dec_zero, by decide, by decide, by decide, by decide⟩
  case canonical =>
    rcases Nat.eq_zero_or_pos n with rfl | h0
    · rw [dec_zero]
      decide
    · have h : n < 10 ^ 10 := by omega
      exact ⟨length_dec_pos h0 h, length_dec_le h0 h, fun _ => toNat_of_mem_dec h0 h, foldl_dec h0 h,
        fun hhead => absurd hhead (head?_dec_ne h0 h)⟩

/-- Settles O37: the blocks of the counters from 1 on cover the n bytes, and the cut keeps every byte below n. -/
theorem kdfConcatenatesCounterBlocks : Obligations.KdfConcatenatesCounterBlocks :=
  fun key lab ctx n => ⟨length_kdf key lab ctx n, fun _ => getElem?_kdf key lab ctx⟩

end Sys2Proof.Machine
end

section
/-! Rules of the key schedule and of the error codes: each derived key as a KDF, the two stages, the lengths, and the
ERRCODE that a command leaves (R95, R96, R100, R127). -/

namespace Sys2Proof.Machine

/-! ## The lines of the schedule -/

theorem schedule_nonceKey (mk : Bytes) (t : Word) (s : BitVec 10) :
    (schedule mk t s).nonceKey = kdf mk labelNonceKey (dec t.toNat) mk.length := rfl

theorem schedule_nonce (mk : Bytes) (t : Word) (s : BitVec 10) :
    (schedule mk t s).nonce = kdf (schedule mk t s).nonceKey labelNonce (dec s.toNat) Config.nonceLen := rfl

theorem schedule_eki (mk : Bytes) (t : Word) (s : BitVec 10) :
    (schedule mk t s).eki = kdf mk labelEncryptionKey (dec t.toNat) mk.length := rfl

theorem schedule_ek (mk : Bytes) (t : Word) (s : BitVec 10) :
    (schedule mk t s).ek = kdf (schedule mk t s).eki labelKey (dec s.toNat) mk.length := rfl

@[simp] theorem length_schedule_nonceKey (mk : Bytes) (t : Word) (s : BitVec 10) :
    (schedule mk t s).nonceKey.length = mk.length := by
  rw [schedule_nonceKey, length_kdf]

@[simp] theorem length_schedule_nonce (mk : Bytes) (t : Word) (s : BitVec 10) :
    (schedule mk t s).nonce.length = Config.nonceLen := by
  rw [schedule_nonce, length_kdf]

@[simp] theorem length_schedule_eki (mk : Bytes) (t : Word) (s : BitVec 10) :
    (schedule mk t s).eki.length = mk.length := by
  rw [schedule_eki, length_kdf]

@[simp] theorem length_schedule_ek (mk : Bytes) (t : Word) (s : BitVec 10) :
    (schedule mk t s).ek.length = mk.length := by
  rw [schedule_ek, length_kdf]

/-! ## The two stages -/

theorem schedule_nonceKey_eq_stage1 (mk : Bytes) (t : Word) (s : BitVec 10) :
    (schedule mk t s).nonceKey = (stage1 mk t).nonceKey := rfl

theorem schedule_eki_eq_stage1 (mk : Bytes) (t : Word) (s : BitVec 10) :
    (schedule mk t s).eki = (stage1 mk t).eki := rfl

theorem schedule_nonce_eq_stage2 (mk : Bytes) (t : Word) (s : BitVec 10) :
    (schedule mk t s).nonce = (stage2 (stage1 mk t).nonceKey (stage1 mk t).eki s).nonce := rfl

/-- The second stage takes KL from EKI and the schedule takes it from MK: EKI has the length of MK (R96). -/
theorem schedule_ek_eq_stage2 (mk : Bytes) (t : Word) (s : BitVec 10) :
    (schedule mk t s).ek = (stage2 (stage1 mk t).nonceKey (stage1 mk t).eki s).ek := by
  have hlen : (stage1 mk t).eki.length = mk.length := length_schedule_eki mk t s
  rw [schedule_ek, schedule_eki_eq_stage1, stage2, hlen]

theorem schedule_eq_stages (mk : Bytes) (t : Word) (s : BitVec 10) :
    schedule mk t s =
      ⟨(stage1 mk t).nonceKey, (stage2 (stage1 mk t).nonceKey (stage1 mk t).eki s).nonce,
       (stage1 mk t).eki, (stage2 (stage1 mk t).nonceKey (stage1 mk t).eki s).ek⟩ := by
  rw [← schedule_nonce_eq_stage2, ← schedule_ek_eq_stage2, ← schedule_nonceKey_eq_stage1 mk t s,
    ← schedule_eki_eq_stage1 mk t s]

/-! ## The error codes -/

/-- 0x06 is the code of KeyDerivationError alone (R122). -/
theorem ErrorCode.code_eq_0x06_iff (e : ErrorCode) : e.code = 0x06 ↔ e = .keyDerivationError := by
  cases e <;> decide

/-- A command leaves ERRCODE as it is, or puts the code of an error that HUBC raises there (R68, R69, R127). -/
theorem exec_errcode {i : Instr} {s t : State} (h : exec i s = .next t) :
    t.errcode = s.errcode ∨ ∃ e : ErrorCode, e ≠ .keyDerivationError ∧ t.errcode = e.code := by
  rcases exec_ends i s with ⟨e, hne, he⟩ | ⟨c, _, hc⟩
  · obtain rfl : s.raiseError e = t := Host.Outcome.next.inj (he.symm.trans h)
    exact .inr ⟨e, hne, s.raiseError_errcode e⟩
  · obtain rfl : s.commit c = t := Host.Outcome.next.inj (hc.symm.trans h)
    exact .inl (s.commit_errcode c)

end Sys2Proof.Machine
end

section
/-! The statements about the key schedule (R95, R96, R100). -/

namespace Sys2Proof.Machine

/-- Settles O38: a KDF has the length asked of it, and the ERRCODE of a command was there before or is the code of an error
other than KeyDerivationError. -/
theorem derivedLengthsAreFixed : Obligations.DerivedLengthsAreFixed := by
  refine ⟨fun mk t s _ => ?lengths, fun i s t hs hexec => ?errcode⟩
  case lengths =>
    exact ⟨length_schedule_nonce mk t s, length_schedule_nonceKey mk t s, length_schedule_eki mk t s,
      length_schedule_ek mk t s⟩
  case errcode =>
    rcases exec_errcode hexec with hkept | ⟨e, hne, hcode⟩
    · rwa [hkept]
    · rwa [hcode, Ne, e.code_eq_0x06_iff]

/-- Settles O39: the four lines are the schedule's own, and the second stage finds KL in the length of EKI. -/
theorem scheduleSplitsIntoStages : Obligations.ScheduleSplitsIntoStages :=
  fun mk t s => ⟨schedule_nonceKey mk t s, schedule_nonce mk t s, schedule_eki mk t s, schedule_ek mk t s,
    schedule_eq_stages mk t s⟩

end Sys2Proof.Machine
end

section
/-! Rules of the packet codec: a slice between two strings, the sequence number as arithmetic, when Parse succeeds, and the
fields of a packet that is built (R7, R101, R102, R104). -/

namespace Sys2Proof.Machine

/-- The slice at the place of the middle string is the middle string. -/
theorem slice_append_append (x y z : Bytes) : slice (x ++ y ++ z) x.length (x.length + y.length) = y := by
  rw [slice, List.append_assoc, List.drop_left, Nat.add_sub_cancel_left, List.take_left]

/-! ## The sequence number -/

theorem toNat_packetSeq (raw : Bytes) : (packetSeq raw).toNat = intBe (slice raw 0 2) % 1024 := by
  have hmask : intBe (slice raw 0 2) &&& Config.seqMask = intBe (slice raw 0 2) % 1024 :=
    Nat.and_two_pow_sub_one_eq_mod _ 10
  rw [packetSeq, BitVec.toNat_ofNat, hmask]
  exact Nat.mod_mod _ 1024

/-- The low 2 bits of the first byte and all of the second make up the sequence number. -/
theorem toNat_packetSeq_cons_cons (b0 b1 : Byte) (rest : Bytes) :
    (packetSeq (b0 :: b1 :: rest)).toNat = 256 * (b0.toNat % 4) + b1.toNat := by
  have hslice : slice (b0 :: b1 :: rest) 0 2 = [b0, b1] := rfl
  have hvalue : intBe [b0, b1] = 256 * (256 * 0 + b0.toNat) + b1.toNat := rfl
  rw [toNat_packetSeq, hslice, hvalue]
  omega

theorem toNat_and_three (b : Byte) : (b &&& 0x03).toNat = b.toNat % 4 :=
  (BitVec.toNat_and b 0x03).trans (Nat.and_two_pow_sub_one_eq_mod b.toNat 2)

/-! ## Parse and Build -/

theorem parsePacket_of_le {raw : Bytes} (h : 10 ≤ raw.length) :
    parsePacket raw = some ⟨packetSeq raw, packetTag raw, packetPayload raw, raw⟩ :=
  if_neg (Nat.not_lt.mpr h)

/-- BE16 of a sequence number keeps it: it has 10 bits. -/
theorem packetSeq_buildPacket (s : BitVec 10) (tag ct : Bytes) : packetSeq (buildPacket s tag ct) = s := by
  have hslice : slice (buildPacket s tag ct) 0 2 = be16 s.toNat := rfl
  have hvalue : intBe (be16 s.toNat) = s.toNat % 65536 := intBe_be 2 s.toNat
  apply BitVec.eq_of_toNat_eq
  rw [toNat_packetSeq, hslice, hvalue]
  omega

theorem packetTag_buildPacket (s : BitVec 10) {tag : Bytes} (ct : Bytes) (h : tag.length = Config.tagLen) :
    packetTag (buildPacket s tag ct) = tag := by
  have hslice := slice_append_append (be16 s.toNat ++ zeros 4) tag ct
  rwa [h] at hslice

theorem packetPayload_buildPacket (s : BitVec 10) {tag : Bytes} (ct : Bytes) (h : tag.length = Config.tagLen) :
    packetPayload (buildPacket s tag ct) = ct := by
  have hslice := slice_append_append (be16 s.toNat ++ zeros 4 ++ tag) ct []
  have hhead : (be16 s.toNat ++ zeros 4 ++ tag).length = 10 := by simp [h, Config.tagLen]
  rw [List.append_nil, hhead] at hslice
  rwa [packetPayload, length_buildPacket s h, Nat.add_comm]

theorem buildPacket_eq_literal (s : BitVec 10) (tag ct : Bytes) :
    buildPacket s tag ct =
      [BitVec.ofNat 8 (s.toNat / 256), BitVec.ofNat 8 (s.toNat % 256), 0, 0, 0, 0] ++ tag ++ ct := by
  have hhead : be16 s.toNat ++ zeros 4 =
      [BitVec.ofNat 8 (s.toNat / 256), BitVec.ofNat 8 s.toNat, 0, 0, 0, 0] := by simp [be16, be, zeros]
  have hlow : BitVec.ofNat 8 s.toNat = BitVec.ofNat 8 (s.toNat % 256) := by
    apply BitVec.eq_of_toNat_eq
    simp
  rw [buildPacket, hhead, hlow]

/-- A byte below 4 has its upper 6 bits 0. -/
theorem and_upperBits_eq_zero : ∀ b : Byte, b.toNat < 4 → b &&& 0xFC = 0 := by decide

/-- The first byte of a built packet is the top 2 bits of its sequence number. -/
theorem upperBits_buildPacket (s : BitVec 10) (tag ct : Bytes) : (buildPacket s tag ct).getD 0 0 &&& 0xFC = 0 := by
  have hbyte : (buildPacket s tag ct).getD 0 0 = BitVec.ofNat 8 (s.toNat / 256) := by
    rw [buildPacket_eq_literal]
    rfl
  have hlt : (BitVec.ofNat 8 (s.toNat / 256)).toNat < 4 := by
    rw [BitVec.toNat_ofNat]
    omega
  rw [hbyte]
  exact and_upperBits_eq_zero _ hlt

end Sys2Proof.Machine
end

section
/-! The statements about the packet codec (R102, R104). -/

namespace Sys2Proof.Machine

/-- Settles O40: each field of a built packet stands where Parse slices it. -/
theorem parseUndoesBuild : Obligations.ParseUndoesBuild := by
  intro s tag ct htag
  have hlen : (buildPacket s tag ct).length = 10 + ct.length := (length_buildPacket s htag).trans (Nat.add_comm _ _)
  refine ⟨buildPacket_eq_literal s tag ct, hlen, upperBits_buildPacket s tag ct, ?parse⟩
  case parse =>
    rw [parsePacket_of_le (hlen ▸ Nat.le_add_right 10 _), packetSeq_buildPacket, packetTag_buildPacket s ct htag,
      packetPayload_buildPacket s ct htag]

/-- Settles O41: each clause is read off the sequence number as 256 * (raw[0] mod 4) + raw[1]. -/
theorem sequenceNumberDropsTheUpperBits : Obligations.SequenceNumberDropsTheUpperBits := by
  refine ⟨fun b0 b1 rest => ?formula, fun b0 b1 rest => ?masked, fun b0 b1 rest hrest => ?accepted, fun rest => ?allOnes⟩
  case formula =>
    have hmask : b0.toNat &&& 0x03 = b0.toNat % 4 := toNat_and_three b0
    rw [toNat_packetSeq_cons_cons, hmask, ← Nat.shiftLeft_add_eq_or_of_lt b1.isLt, Nat.shiftLeft_eq, Nat.mul_comm]
  case masked =>
    apply BitVec.eq_of_toNat_eq
    rw [toNat_packetSeq_cons_cons, toNat_packetSeq_cons_cons, toNat_and_three, Nat.mod_mod]
  case accepted =>
    have hlen : 10 ≤ (b0 :: b1 :: rest).length := Nat.add_le_add_right hrest 2
    rw [parsePacket_of_le hlen, Option.isSome_some]
  case allOnes =>
    apply BitVec.eq_of_toNat_eq
    rw [toNat_packetSeq_cons_cons]
    rfl

end Sys2Proof.Machine
end

section
/-! Rules of the decryption engine: the candidates of a window, and the search over a list of them (R108 to R110). -/

namespace Sys2Proof.Machine

/-! ## The candidates of a window -/

theorem dayInRange_iff {d : Int} : dayInRange d = true ↔ 0 ≤ d ∧ d ≤ 4294967295 := decide_eq_true_iff

/-- Every word is a day in range. -/
theorem dayInRange_toNat (c : Word) : dayInRange c.toNat = true := by
  rw [dayInRange_iff]
  omega

/-- A day in range is not wrapped. -/
theorem toNat_ofInt_of_dayInRange {d : Int} (h : dayInRange d = true) : ((BitVec.ofInt 32 d).toNat : Int) = d := by
  obtain ⟨hlow, hhigh⟩ := dayInRange_iff.mp h
  rw [BitVec.toNat_ofInt]
  omega

theorem eq_ofInt_iff_of_dayInRange {d : Int} (h : dayInRange d = true) (c : Word) :
    c = BitVec.ofInt 32 d ↔ (c.toNat : Int) = d := by
  rw [← BitVec.toNat_inj, ← Int.natCast_inj, toNat_ofInt_of_dayInRange h]

theorem candidatesFrom_succ_of_inRange {n : Nat} {d : Int} (h : dayInRange d = true) :
    candidatesFrom (n + 1) d = BitVec.ofInt 32 d :: candidatesFrom n (d + 1) := if_pos h

theorem candidatesFrom_succ_of_not_inRange {n : Nat} {d : Int} (h : ¬ dayInRange d = true) :
    candidatesFrom (n + 1) d = candidatesFrom n (d + 1) := if_neg h

/-- A day out of range is skipped, and no word has its value: so both cases of the recursion read alike. -/
theorem mem_candidatesFrom_succ {n : Nat} {d : Int} {c : Word} :
    c ∈ candidatesFrom (n + 1) d ↔ (c.toNat : Int) = d ∨ c ∈ candidatesFrom n (d + 1) := by
  by_cases hday : dayInRange d = true
  · rw [candidatesFrom_succ_of_inRange hday, List.mem_cons, eq_ofInt_iff_of_dayInRange hday]
  · have hne : (c.toNat : Int) ≠ d := fun heq => hday (heq ▸ dayInRange_toNat c)
    rw [candidatesFrom_succ_of_not_inRange hday, or_iff_right hne]

theorem mem_candidatesFrom {n : Nat} {d : Int} {c : Word} :
    c ∈ candidatesFrom n d ↔ d ≤ (c.toNat : Int) ∧ (c.toNat : Int) < d + n := by
  induction n generalizing d with
  | zero =>
    rw [candidatesFrom, List.mem_nil_iff, false_iff]
    omega
  | succ n ih =>
    rw [mem_candidatesFrom_succ, ih]
    omega

theorem candidatesFrom_ascending (n : Nat) (d : Int) :
    (candidatesFrom n d).Pairwise (fun a b => a.toNat < b.toNat) := by
  induction n generalizing d with
  | zero => exact List.Pairwise.nil
  | succ n ih =>
    by_cases hday : dayInRange d = true
    · rw [candidatesFrom_succ_of_inRange hday]
      refine List.pairwise_cons.mpr ⟨fun c hc => ?_, ih (d + 1)⟩
      have hhead := toNat_ofInt_of_dayInRange hday
      obtain ⟨hlater, _⟩ := mem_candidatesFrom.mp hc
      omega
    · rw [candidatesFrom_succ_of_not_inRange hday]
      exact ih (d + 1)

theorem length_candidatesFrom_le (n : Nat) (d : Int) : (candidatesFrom n d).length ≤ n := by
  induction n generalizing d with
  | zero => exact Nat.le_refl 0
  | succ n ih =>
    by_cases hday : dayInRange d = true
    · rw [candidatesFrom_succ_of_inRange hday]
      exact Nat.succ_le_succ (ih (d + 1))
    · rw [candidatesFrom_succ_of_not_inRange hday]
      exact Nat.le_succ_of_le (ih (d + 1))

theorem mem_candidates {time : Int} {w : Nat} {c : Word} :
    c ∈ candidates time w ↔ dayOf time - w ≤ (c.toNat : Int) ∧ (c.toNat : Int) ≤ dayOf time + w := by
  rw [candidates, mem_candidatesFrom]
  omega

theorem candidates_ascending (time : Int) (w : Nat) :
    (candidates time w).Pairwise (fun a b => a.toNat < b.toNat) := candidatesFrom_ascending _ _

theorem candidates_nodup (time : Int) (w : Nat) : (candidates time w).Nodup :=
  (candidates_ascending time w).imp (by rintro a _ hlt rfl; exact Nat.lt_irrefl a.toNat hlt)

theorem length_candidates_le (time : Int) (w : Nat) : (candidates time w).length ≤ 2 * w + 1 :=
  length_candidatesFrom_le _ _

/-- A window that meets the TimeCounter range holds its own first day or, where that is negative, day 0. -/
theorem candidates_eq_nil_iff {time : Int} {w : Nat} :
    candidates time w = [] ↔ dayOf time + w < 0 ∨ 4294967295 < dayOf time - w := by
  rw [List.eq_nil_iff_forall_not_mem]
  constructor
  · intro hnone
    by_contra hmeets
    have hfirst : (BitVec.ofNat 32 (dayOf time - w).toNat).toNat = (dayOf time - w).toNat := by
      rw [BitVec.toNat_ofNat]
      omega
    apply hnone (BitVec.ofNat 32 (dayOf time - w).toNat)
    rw [mem_candidates, hfirst]
    omega
  · intro houtside c hc
    have hwindow := mem_candidates.mp hc
    omega

/-! ## The search over a list of candidates -/

section
variable {mk raw : Bytes} {c : Word} {rest : List Word}

theorem searchIn_cons_of_some {r : Opened} (h : tryDecrypt mk raw c = some r) :
    searchIn mk raw (c :: rest) = some r := by
  rw [searchIn, h]

theorem searchIn_cons_of_none (h : tryDecrypt mk raw c = none) :
    searchIn mk raw (c :: rest) = searchIn mk raw rest := by
  rw [searchIn, h]

end

/-- The search is the library's first success of an attempt. -/
theorem searchIn_eq_findSome? (mk raw : Bytes) (cs : List Word) :
    searchIn mk raw cs = cs.findSome? (tryDecrypt mk raw) := by
  induction cs with
  | nil => rfl
  | cons c rest ih =>
    cases htry : tryDecrypt mk raw c with
    | some r => rw [searchIn_cons_of_some htry, List.findSome?_cons_of_isSome (by simp [htry]), htry]
    | none => rw [searchIn_cons_of_none htry, List.findSome?_cons_of_isNone (by simp [htry]), ih]

theorem searchIn_eq_none_iff {mk raw : Bytes} {cs : List Word} :
    searchIn mk raw cs = none ↔ ∀ c ∈ cs, tryDecrypt mk raw c = none := by
  rw [searchIn_eq_findSome?, List.findSome?_eq_none_iff]

/-- In an ascending list the candidates before one are the smaller ones, so the first match is the smallest (R117). -/
theorem searchIn_eq_some_iff {mk raw : Bytes} {cs : List Word} {r : Opened}
    (hsorted : cs.Pairwise (fun a b => a.toNat < b.toNat)) :
    searchIn mk raw cs = some r ↔
      ∃ c ∈ cs, tryDecrypt mk raw c = some r ∧ ∀ d ∈ cs, d.toNat < c.toNat → tryDecrypt mk raw d = none := by
  rw [searchIn_eq_findSome?, List.findSome?_eq_some_iff]
  constructor
  · rintro ⟨before, c, after, rfl, hc, hbefore⟩
    obtain ⟨_, hafter, _⟩ := List.pairwise_append.mp hsorted
    refine ⟨c, List.mem_append_right before List.mem_cons_self, hc, fun d hd hlt => ?_⟩
    rcases List.mem_append.mp hd with hin | hin
    · exact hbefore d hin
    · rcases List.mem_cons.mp hin with rfl | hin
      · exact absurd hlt (Nat.lt_irrefl _)
      · exact absurd hlt (Nat.lt_asymm (List.rel_of_pairwise_cons hafter hin))
  · rintro ⟨c, hmem, hc, hsmaller⟩
    obtain ⟨before, after, rfl⟩ := List.append_of_mem hmem
    obtain ⟨_, _, hcross⟩ := List.pairwise_append.mp hsorted
    exact ⟨before, c, after, rfl, hc, fun d hd =>
      hsmaller d (List.mem_append_left _ hd) (hcross d hd c List.mem_cons_self)⟩

end Sys2Proof.Machine
end

section
/-! The statements about the candidates and the search (R108 to R110, R117). -/

namespace Sys2Proof.Machine

/-- Settles O42: a word is a candidate exactly when it lies in the window, and the list follows the days upward. -/
theorem candidatesAreTheClippedWindow : Obligations.CandidatesAreTheClippedWindow := by
  refine ⟨fun time => ?floor, by decide, by decide, fun time w =>
    ⟨fun c => mem_candidates, candidates_ascending time w, length_candidates_le time w, candidates_eq_nil_iff⟩⟩
  case floor =>
    rw [dayOf, Config.secondsPerDay]
    omega

/-- Settles O43: the search is the first success over a list that is ascending. -/
theorem searchReturnsTheSmallestMatch : Obligations.SearchReturnsTheSmallestMatch :=
  fun _ _ time w => ⟨fun _ => searchIn_eq_some_iff (candidates_ascending time w), searchIn_eq_none_iff,
    length_candidates_le time w, candidates_nodup time w⟩

end Sys2Proof.Machine
end

section
/-! Rules of a completion: an error report as the host sees it, the engine's turn with nothing on its way to the port, and IRQ
after each operation that can change it (R69, R128, R131). -/

namespace Sys2Proof.Machine

/-! ## The engine's turn -/

theorem step_of_no_inputs {s : State} (hi : s.inputs = []) : step s = engineStep s := by
  rw [step, hi]

/-- A step with nothing on its way that finds a command executing and leaves ERR = 1 from ERR = 0 is an error completion. -/
theorem step_eq_raiseError {s t : State} (hr : s.rstN = true) (hb : s.busy = true) (hi : s.inputs = [])
    (herr : s.err = false) (hstep : step s = .next t) (hterr : t.err = true) : ∃ e, t = s.raiseError e := by
  rw [step_of_no_inputs hi] at hstep
  rcases engineStep_ends s with ⟨hidle, _⟩ | ⟨_, ⟨e, _, he⟩ | ⟨c, _, hc⟩⟩
  · rw [hr, hb] at hidle
    contradiction
  · exact ⟨e, Host.Outcome.next.inj (hstep.symm.trans he)⟩
  · obtain rfl : t = s.commit c := Host.Outcome.next.inj (hstep.symm.trans hc)
    rw [State.commit_err, herr] at hterr
    contradiction

/-! ## The report of an error -/

/-- STATUS after an error completion of a command that left MATCH at 0: ERR alone (R69). -/
theorem State.readReg_status_raiseError {s : State} (e : ErrorCode) (hm : s.matched = false) :
    (s.raiseError e).readReg .status = 0x2 := by
  simp [State.readReg, State.statusWord, flagBit, hm]

theorem State.toNat_readReg_errcode (s : State) : (s.readReg .errcode).toNat = s.errcode.toNat :=
  BitVec.toNat_setWidth_of_le (by decide)

/-! ## IRQ -/

theorem State.irq_of_done {s : State} (h : s.done = true) : s.irq = s.irqEn := by
  rw [State.irq, h, Bool.true_and]

theorem State.irq_of_not_done {s : State} (h : s.done = false) : s.irq = false := by
  rw [State.irq, h, Bool.false_and]

theorem State.irq_of_disabled {s : State} (h : s.irqEn = false) : s.irq = false := by
  rw [State.irq, h, Bool.and_false]

@[simp] theorem State.irq_raiseError (e : ErrorCode) (s : State) : (s.raiseError e).irq = s.irqEn :=
  State.irq_of_done rfl

@[simp] theorem State.irq_commit (c : Commit) (s : State) : (s.commit c).irq = s.irqEn :=
  State.irq_of_done rfl

/-- Both completions set DONE and leave IRQ_EN as it is (R68, R69). -/
theorem exec_irq {i : Instr} {s t : State} (h : exec i s = .next t) : t.irq = s.irqEn := by
  rcases exec_ends i s with ⟨e, _, he⟩ | ⟨c, _, hc⟩
  · obtain rfl : s.raiseError e = t := Host.Outcome.next.inj (he.symm.trans h)
    exact s.irq_raiseError e
  · obtain rfl : s.commit c = t := Host.Outcome.next.inj (hc.symm.trans h)
    exact s.irq_commit c

theorem State.hostWrite_evt (s : State) (v : Word) : s.hostWrite .evt v = s.writeEvt v :=
  s.hostWrite_of_unlocked v rfl

/-- A write to EVT keeps IRQ, except that a 1 in bit 0 lowers it (R22). -/
theorem State.irq_writeEvt (s : State) (v : Word) : (s.writeEvt v).irq = (s.irq && !v.getLsbD 0) := by
  rw [State.irq, State.irq, State.writeEvt_done, State.writeEvt_irqEn, clearedBy, Bool.and_right_comm]

/-- After a write to CTRL with bit 0 = 0, IRQ_EN is 0: with SRST = 1 by the reset, with SRST = 0 by the write (R18). -/
theorem State.irqEn_writeCtrl {v : Word} (s : State) (hv : v.getLsbD 0 = false) : (s.writeCtrl v).irqEn = false := by
  rw [State.writeCtrl]
  split
  · rfl
  · exact hv

end Sys2Proof.Machine
end

section
/-! The statements about precise errors and about IRQ (R128, R131). -/

namespace Sys2Proof.Machine

/-- Settles O11: the step is an error completion of the started command, and the start itself changed only what R128 lists
and the snapshot, which the completion discards. -/
theorem errorsArePrecise : Obligations.ErrorsArePrecise := by
  intro p t w wign hr _ hsnap hi hstep hterr
  obtain ⟨e, rfl⟩ := step_eq_raiseError (s := { p.startCommand w with wign := wign }) hr rfl hi rfl hstep hterr
  refine ⟨e.code_ne_zero, ?precise, State.readReg_status_raiseError e rfl, State.toNat_readReg_errcode _,
    State.irq_raiseError e _⟩
  rw [hsnap]
  rfl

/-- Settles O25: each operation sets or clears DONE or IRQ_EN, or leaves both as they are. -/
theorem irqFollowsDoneAndEnable : Obligations.IrqFollowsDoneAndEnable := by
  refine ⟨fun _ => rfl, fun _ _ _ => exec_irq, fun s v hv => ?evtOne, fun s v hv => ?evtZero, fun s w hb => ?cmd,
    fun s v hv => ?ctrl, fun _ _ => ⟨State.irq_of_not_done rfl, State.irq_of_not_done rfl⟩, fun _ _ => rfl⟩
  case evtOne => rw [State.hostWrite_evt, State.irq_writeEvt, hv, Bool.not_true, Bool.and_false]
  case evtZero => rw [State.hostWrite_evt, State.irq_writeEvt, hv, Bool.not_false, Bool.and_true]
  case cmd =>
    rw [State.hostWrite_cmd_of_idle w hb]
    exact State.irq_of_not_done rfl
  case ctrl =>
    rw [s.hostWrite_of_unlocked v rfl]
    exact State.irq_of_disabled (s.irqEn_writeCtrl hv)

end Sys2Proof.Machine
end

section
/-! Rules of validation: the checks of a command as R124 orders them over the table of R62, the code of the first one that
fails, and how a command ends once they are done (R62, R66, R124). -/

namespace Sys2Proof.Machine

/-! ## The checks of a command -/

/-- Check 6 of R124: the day of TIME is a TimeCounter. -/
def Snapshot.timeCheck (x : Snapshot) : Check := ⟨dayInRange (dayOf x.time), .timeOutOfRange⟩

/-- Check 3 of R124, for a region of the table of R62. -/
def regionCheck (p : Nat × Nat) : Check := Region.check ⟨p.1, p.2⟩

/-- A check that a command makes only under a condition, and the checks after it. -/
def checkIf (p : Prop) [Decidable p] (c : Check) (rest : List Check) : List Check := if p then c :: rest else rest

/-- Checks 2 to 6 of R124 in their order, each one where the tables of R62 and R122 ask for it. `exec_checked` ties them to the
check lists of the commands. -/
def ruleChecks (i : Instr) (x : Snapshot) : List Check :=
  checkIf (usesKey i = true) x.keyCheck <|
  (regionsOf i x.regs).map regionCheck ++
  (checkIf (i = .verify) x.tagLengthCheck <|
  checkIf (i = .parse ∨ i = .decryptKnown ∨ i = .decrypt ∨ i = .findTc) x.packetCheck <|
  checkIf (i = .time2tc) x.timeCheck [])

/-- The payload length of R62, with its two cases written out. -/
theorem Snapshot.payloadLen_eq (x : Snapshot) :
    x.payloadLen = if 10 ≤ x.regs.srcLen.toNat then x.regs.srcLen.toNat - 10 else 0 := by
  rw [Snapshot.payloadLen, Snapshot.srcLen, Config.minPacket]
  split <;> omega

theorem decryptKnownChecks_eq (x : Snapshot) : decryptKnownChecks x = ruleChecks .decryptKnown x := by
  rw [decryptKnownChecks, Snapshot.payloadLen_eq]
  rfl

theorem decryptChecks_eq (x : Snapshot) : decryptChecks x = ruleChecks .decrypt x := by
  rw [decryptChecks, Snapshot.payloadLen_eq]
  rfl

/-! ## The conditions under which a check fails -/

theorem Snapshot.keyCheck_fails_iff (x : Snapshot) :
    x.keyCheck.ok = false ↔ x.regs.keylen ≠ 16 ∧ x.regs.keylen ≠ 32 := by
  simp [Snapshot.keyCheck, Snapshot.keySizeOk, Snapshot.kl, ← BitVec.toNat_inj]

theorem Region.check_fails_iff (r : Region) : r.check.ok = false ↔ 512 < r.off + r.len := by
  rw [← Bool.not_eq_true, Region.check_ok, Config.bufSize, Nat.not_le]

theorem regionCheck_fails_iff (p : Nat × Nat) : (regionCheck p).ok = false ↔ 512 < p.1 + p.2 :=
  Region.check_fails_iff ⟨p.1, p.2⟩

theorem Snapshot.tagLengthCheck_fails_iff (x : Snapshot) : x.tagLengthCheck.ok = false ↔ x.regs.auxLen ≠ 4 := by
  simp [Snapshot.tagLengthCheck, Snapshot.auxLen, ← BitVec.toNat_inj]

theorem Snapshot.packetCheck_fails_iff (x : Snapshot) : x.packetCheck.ok = false ↔ x.regs.srcLen.toNat < 10 :=
  decide_eq_false_iff_not.trans Nat.not_le

/-- The last day that is a TimeCounter ends before second 371085174374400 (R116). -/
theorem Snapshot.timeCheck_fails_iff (x : Snapshot) :
    x.timeCheck.ok = false ↔ x.time < 0 ∨ 371085174374400 ≤ x.time := by
  rw [← Bool.not_eq_true, Snapshot.timeCheck, dayInRange_iff, dayOf, Config.secondsPerDay]
  omega

/-! ## The code of the first failing check -/

theorem firstFailure_cons (c : Check) (cs : List Check) :
    firstFailure (c :: cs) = if c.ok = false then some c.code else firstFailure cs := by
  cases hc : c.ok <;> simp [firstFailure, hc]

theorem map_code_firstFailure_checkIf (p : Prop) [Decidable p] (c : Check) (rest : List Check) :
    (firstFailure (checkIf p c rest)).map ErrorCode.code =
      if p ∧ c.ok = false then some c.code.code else (firstFailure rest).map ErrorCode.code := by
  by_cases hp : p
  · simp only [checkIf, hp, if_true, true_and, firstFailure_cons, apply_ite (Option.map ErrorCode.code)]
    rfl
  · simp only [checkIf, hp, if_false, false_and]

/-- Whichever region is invalid, the code is BufferRange. -/
theorem map_code_firstFailure_regions (rs : List (Nat × Nat)) (cs : List Check) :
    (firstFailure (rs.map regionCheck ++ cs)).map ErrorCode.code =
      if ∃ p ∈ rs, 512 < p.1 + p.2 then some 0x81 else (firstFailure cs).map ErrorCode.code := by
  induction rs with
  | nil => simp
  | cons r rs ih =>
    rw [List.map_cons, List.cons_append, firstFailure_cons, apply_ite (Option.map ErrorCode.code), ih]
    simp only [regionCheck_fails_iff, List.exists_mem_cons_iff, ite_or]
    rfl

/-- The rule's error is the code of the first of its checks that fails (R124). -/
theorem ruleError_eq (i : Instr) (x : Snapshot) : ruleError i x = (firstFailure (ruleChecks i x)).map ErrorCode.code := by
  simp only [ruleChecks, map_code_firstFailure_checkIf, map_code_firstFailure_regions, x.keyCheck_fails_iff,
    x.tagLengthCheck_fails_iff, x.packetCheck_fails_iff, x.timeCheck_fails_iff]
  rfl

/-! ## How a command ends once its checks are done -/

/-- The errors a command can end with when no input check fails (R124). -/
def lateErrors (i : Instr) : List ErrorCode :=
  match i with
  | .decryptKnown => [.authenticationFailure]
  | .decrypt | .findTc => [.decryptionFailed]
  | .nop | .cmac | .tag | .verify | .ctr | .kdf | .kdfNum | .ksStage1 | .ksStage2 | .ksDerive | .parse | .build | .encrypt
  | .time2tc => []

/-- How a command with a list of checks ends: with the error of the first that fails, or, when none does, with a commit or an
error of its own. -/
inductive Checked (s : State) (cs : List Check) (late : List ErrorCode) (o : Host.Outcome State Fault Refusal) : Prop where
  | failed (e : ErrorCode) (hfail : firstFailure cs = some e) (ho : o = .next (s.raiseError e))
  | committed (hpass : firstFailure cs = none) (c : Commit) (ho : o = .next (s.commit c))
  | late (hpass : firstFailure cs = none) (e : ErrorCode) (he : e ∈ late) (ho : o = .next (s.raiseError e))

/-- The validation that every command with checks begins with (R66). -/
def validated (s : State) (cs : List Check) (o : Host.Outcome State Fault Refusal) : Host.Outcome State Fault Refusal :=
  match firstFailure cs with
  | some e => .next (s.raiseError e)
  | none => o

/-- The completion of a command that looks for an authentic packet (R107, R110). -/
def attempted (s : State) (e : ErrorCode) (found : Option Opened) (c : Opened → Commit) : Host.Outcome State Fault Refusal :=
  match found with
  | none => .next (s.raiseError e)
  | some r => .next (s.commit (c r))

theorem checked_validated (s : State) {cs : List Check} {late : List ErrorCode} {o : Host.Outcome State Fault Refusal}
    (ho : firstFailure cs = none → Checked s cs late o) : Checked s cs late (validated s cs o) := by
  unfold validated
  split
  next e hfail => exact .failed e hfail rfl
  next hpass => exact ho hpass

theorem checked_commit (s : State) (cs : List Check) (late : List ErrorCode) (c : Commit) :
    Checked s cs late (validated s cs (.next (s.commit c))) :=
  checked_validated s fun hpass => .committed hpass c rfl

theorem checked_attempt (s : State) (cs : List Check) {late : List ErrorCode} {e : ErrorCode} (he : e ∈ late)
    (found : Option Opened) (c : Opened → Commit) : Checked s cs late (validated s cs (attempted s e found c)) := by
  refine checked_validated s fun hpass => ?_
  cases found with
  | none => exact .late hpass e he rfl
  | some r => exact .committed hpass (c r) rfl

/-- Every command makes the checks of the rule, in its order, before anything else (R66, R124). -/
theorem exec_checked (i : Instr) (s : State) : Checked s (ruleChecks i s.operands) (lateErrors i) (exec i s) := by
  cases i with
  | nop => exact .committed rfl {} rfl
  | cmac => exact checked_commit s (cmacChecks s.operands) [] _
  | tag => exact checked_commit s (tagChecks s.operands) [] _
  | verify => exact checked_commit s (verifyChecks s.operands) [] _
  | ctr => exact checked_commit s (ctrChecks s.operands) [] _
  | kdf => exact checked_commit s (kdfChecks s.operands) [] _
  | kdfNum => exact checked_commit s (kdfNumChecks s.operands) [] _
  | ksStage1 => exact checked_commit s (ksStage1Checks s.operands) [] _
  | ksStage2 => exact checked_commit s (ksStage2Checks s.operands) [] _
  | ksDerive => exact checked_commit s (ksDeriveChecks s.operands) [] _
  | parse => exact checked_commit s (parseChecks s.operands) [] _
  | build => exact checked_commit s (buildChecks s.operands) [] _
  | encrypt => exact checked_commit s (encryptChecks s.operands) [] _
  | decryptKnown =>
    rw [← decryptKnownChecks_eq]
    exact checked_attempt s _ (List.mem_singleton_self _) _ _
  | decrypt =>
    rw [← decryptChecks_eq]
    exact checked_attempt s _ (List.mem_singleton_self _) _ _
  | findTc => exact checked_attempt s (findTcChecks s.operands) (List.mem_singleton_self _) _ _
  | time2tc => exact checked_commit s (time2tcChecks s.operands) [] _

/-- Each of these errors is the only one of its command, and comes from the attempt or the search (R113 to R115). -/
theorem mem_lateErrors {i : Instr} {e : ErrorCode} (h : e ∈ lateErrors i) :
    (i = .decryptKnown ∧ e = .authenticationFailure) ∨ ((i = .decrypt ∨ i = .findTc) ∧ e = .decryptionFailed) := by
  cases i with
  | decryptKnown => exact .inl ⟨rfl, List.mem_singleton.mp h⟩
  | decrypt => exact .inr ⟨.inl rfl, List.mem_singleton.mp h⟩
  | findTc => exact .inr ⟨.inr rfl, List.mem_singleton.mp h⟩
  | _ => exact absurd h List.not_mem_nil

theorem exec_of_failed {i : Instr} {s : State} {e : ErrorCode} (h : firstFailure (ruleChecks i s.operands) = some e) :
    exec i s = .next (s.raiseError e) := by
  cases exec_checked i s with
  | failed e' hfail ho =>
    obtain rfl : e' = e := Option.some.inj (hfail.symm.trans h)
    exact ho
  | committed hpass | late hpass => exact absurd (hpass.symm.trans h) nofun

theorem exec_of_passed {i : Instr} {s : State} (h : firstFailure (ruleChecks i s.operands) = none) :
    (∃ c, exec i s = .next (s.commit c)) ∨ ∃ e ∈ lateErrors i, exec i s = .next (s.raiseError e) := by
  cases exec_checked i s with
  | failed e hfail => exact absurd (hfail.symm.trans h) nofun
  | committed _ c ho => exact .inl ⟨c, ho⟩
  | late _ e he ho => exact .inr ⟨e, he, ho⟩

end Sys2Proof.Machine
end

section
/-! The statement about the first failing check (R124). -/

namespace Sys2Proof.Machine

/-- Settles O12: a command makes the rule's checks in the rule's order, and an illegal word fails before all of them. -/
theorem firstFailingCheckDecidesTheError : Obligations.FirstFailingCheckDecidesTheError := by
  refine ⟨fun s e hr hb hi hd => ?illegal, fun i s c hrule => ?failed, fun i s t hrule hexec => ?passed⟩
  case illegal => exact (step_of_no_inputs hi).trans (engineStep_of_illegal hr hb hd)
  case failed =>
    rw [ruleError_eq, Option.map_eq_some_iff] at hrule
    obtain ⟨e, hfail, rfl⟩ := hrule
    exact exec_of_failed hfail
  case passed =>
    rw [ruleError_eq, Option.map_eq_none_iff] at hrule
    rcases exec_of_passed hrule with ⟨c, hc⟩ | ⟨e, he, hlate⟩
    · obtain rfl : s.commit c = t := Host.Outcome.next.inj (hc.symm.trans hexec)
      exact .inl ⟨s.commit_err c, s.commit_errcode c⟩
    · obtain rfl : s.raiseError e = t := Host.Outcome.next.inj (hlate.symm.trans hexec)
      rcases mem_lateErrors he with ⟨hi, rfl⟩ | ⟨hi, rfl⟩
      · exact .inr (.inl ⟨hi, rfl⟩)
      · exact .inr (.inr ⟨hi, rfl⟩)

end Sys2Proof.Machine
end

section
/-! Rules of the register window and of reset: the offset of the register an offset names, the BUSY lock as a fact of offsets,
writes to CTRL and to what no host writes, the registers right after reset, and a level of rst_n (R15, R18, R64, R139 to
R145). -/

namespace Sys2Proof.Machine

/-! ## Registers and their offsets -/

/-- The window in the parts of R15: the registers from ID to RES_LEN, the KEY words, the BUF words and the rest. -/
theorem aligned_offset_cases {off : Nat} (hoff : off < 4096) (hal : off % 4 = 0) :
    (∃ k < 24, off = 4 * k) ∨ (∃ i < 8, off = 0x080 + 4 * i) ∨ (∃ i < 128, off = 0x400 + 4 * i) ∨ reservedOffset off := by
  by_cases hlow : off < 0x060
  · exact .inl ⟨off / 4, by omega, by omega⟩
  by_cases hkey : 0x080 ≤ off ∧ off < 0x0A0
  · exact .inr (.inl ⟨(off - 0x080) / 4, by omega, by omega⟩)
  by_cases hbuf : 0x400 ≤ off ∧ off < 0x600
  · exact .inr (.inr (.inl ⟨(off - 0x400) / 4, by omega, by omega⟩))
  refine .inr (.inr (.inr ?_))
  unfold reservedOffset
  omega

/-- The first 24 words of the window, ID to RES_LEN. -/
theorem regAt_low : ∀ k < 24, (regAt (4 * k)).offset = 4 * k ∧ (regAt (4 * k)).wf = true := by decide

theorem wf_reserved_iff (off : Nat) : (Reg.reserved off).wf = true ↔ off % 4 = 0 ∧ reservedOffset off := by
  simp only [Reg.wf, reservedOffset, Bool.and_eq_true, Bool.or_eq_true, beq_iff_eq, decide_eq_true_eq, or_assoc]

/-- An offset of the window names a register of R15, and that register stands at the offset. -/
theorem regAt_correct {off : Nat} (hoff : off < 4096) (hal : off % 4 = 0) :
    (regAt off).offset = off ∧ (regAt off).wf = true := by
  rcases aligned_offset_cases hoff hal with ⟨k, hk, rfl⟩ | ⟨i, hi, rfl⟩ | ⟨i, hi, rfl⟩ | hres
  · exact regAt_low k hk
  · rw [regAt_key hi]
    exact ⟨rfl, rfl⟩
  · rw [regAt_bufWord hi]
    exact ⟨rfl, rfl⟩
  · rw [regAt_of_reservedOffset hres, wf_reserved_iff]
    exact ⟨rfl, hal, hres⟩

/-- The BUSY lock of R15 as a range of offsets. -/
theorem busyLocked_iff_lockedOffset {r : Reg} (h : r.wf = true) : busyLocked r = true ↔ lockedOffset r.offset := by
  cases r with
  | key i | bufWord i =>
    simp only [busyLocked, lockedOffset, Reg.offset, true_iff]
    omega
  | reserved off =>
    obtain ⟨_, hres⟩ := (wf_reserved_iff off).mp h
    unfold reservedOffset at hres
    simp only [busyLocked, lockedOffset, Reg.offset, Bool.false_eq_true, false_iff]
    omega
  | _ => simp [busyLocked, lockedOffset, Reg.offset]

theorem busyLocked_regAt_iff {off : Nat} (hoff : off < 4096) (hal : off % 4 = 0) :
    busyLocked (regAt off) = true ↔ lockedOffset off := by
  obtain ⟨hoffset, hwf⟩ := regAt_correct hoff hal
  rw [busyLocked_iff_lockedOffset hwf, hoffset]

theorem regAt_ctrl : regAt 0x008 = .ctrl := rfl

theorem regAt_evt : regAt 0x018 = .evt := rfl

theorem regAt_ne_of_ne_offset {off : Nat} {r : Reg} (hoff : off < 4096) (hal : off % 4 = 0) (h : off ≠ r.offset) :
    regAt off ≠ r := by
  rintro rfl
  obtain ⟨hoffset, _⟩ := regAt_correct hoff hal
  exact h hoffset.symm

/-! ## Host writes -/

/-- A register that is neither BUSY-locked nor CTRL nor EVT is read-only or reserved: a write to it is ignored (R64). -/
theorem State.hostWrite_of_readOnly (s : State) {r : Reg} (v : Word) (hl : busyLocked r = false) (hctrl : r ≠ .ctrl)
    (hevt : r ≠ .evt) : s.hostWrite r v = s := by
  rw [s.hostWrite_of_unlocked v hl]
  cases r with
  | ctrl => contradiction
  | evt => contradiction
  | id | version | status | errcode | resTc | resSeq | resOff | resLen | reserved => rfl
  | _ => contradiction

theorem State.hostWrite_ctrl_of_srst (s : State) {v : Word} (hv : v.getLsbD 1 = true) :
    s.hostWrite .ctrl v = s.resetBlock := by
  rw [s.hostWrite_of_unlocked v rfl, State.writeReg, State.writeCtrl, if_pos hv, State.softReset_eq]

theorem State.hostWrite_ctrl_of_not_srst (s : State) {v : Word} (hv : v.getLsbD 1 = false) :
    s.hostWrite .ctrl v = { s with irqEn := v.getLsbD 0 } := by
  rw [s.hostWrite_of_unlocked v rfl, State.writeReg, State.writeCtrl, hv, if_neg Bool.false_ne_true]

/-! ## Flags as words -/

theorem getLsbD_flagBit_of_ne (b : Bool) {n i : Nat} (h : i ≠ n) : (flagBit b n).getLsbD i = false := by
  cases b with
  | false => exact BitVec.getLsbD_zero
  | true =>
    rw [flagBit, if_pos rfl, ← BitVec.twoPow_eq, BitVec.getLsbD_twoPow]
    simp [h.symm]

/-! ## Reset -/

theorem Memory.word_nil (i : Nat) : Memory.word [] i = 0 := by
  simp only [Memory.word, Memory.readByte_nil]
  rfl

/-- The constants and the default window are all that a host reads as other than 0 after reset (R139). -/
theorem State.readReg_reset_eq_zero {r : Reg} (hid : r ≠ .id) (hversion : r ≠ .version) (hwindow : r ≠ .window) :
    State.reset.readReg r = 0 := by
  cases r with
  | id => contradiction
  | version => contradiction
  | window => contradiction
  | bufWord i => exact Memory.word_nil i
  | _ => rfl

/-- A level of rst_n that is 0, or that ends a 0, is a power-on reset (R141). -/
theorem State.drivePin_of_reset {s : State} {level : Bool} (h : level = false ∨ s.rstN = false) :
    s.drivePin level = { State.reset with rstN := level, inputs := s.inputs } := by
  rcases s.drivePin_cases level with ⟨rfl, hr, _⟩ | ⟨_, hreset⟩
  · simp [hr] at h
  · exact hreset

/-! ## Steps -/

theorem step_of_resetPin {s : State} {level : Bool} {rest : List Event} (hi : s.inputs = .resetPin level :: rest) :
    step s = .next (State.drivePin level { s with inputs := rest }) := by
  rw [step, hi]

/-- A write to CTRL with SRST = 1 reaches the reset state in its own step, whatever the block was doing (R140, R142). -/
theorem step_of_write_srst {s : State} {v : Word} {rest : List Event} (hr : s.rstN = true) (hv : v.getLsbD 1 = true)
    (hi : s.inputs = writeAt 0x008 v :: rest) : step s = .next { State.reset with inputs := rest, port := .ack } := by
  have hreset := State.hostWrite_ctrl_of_srst { s with inputs := rest } hv
  rw [step_of_writeAt hr (by decide) (by decide) hi, regAt_ctrl, hreset, State.resetBlock, hr]
  rfl

end Sys2Proof.Machine
end

section
/-! The statements about writes while BUSY and about reset (R64, R139 to R142, R145). -/

namespace Sys2Proof.Machine

/-- Settles O14: the offset decides whether its register is BUSY-locked, CTRL, EVT or read-only, and each kind has its rule. -/
theorem writesWhileBusy : Obligations.WritesWhileBusy := by
  intro s off v rest hr hoff hal hi
  have hlock := busyLocked_regAt_iff hoff hal
  have hstep := step_of_writeAt hr hoff hal hi
  refine ⟨fun hb hl => ?locked, ?ctrl, ?srst, ?evt, fun hl hctrl hevt => ?ignored⟩
  case locked => rw [hstep, State.hostWrite_of_busy (s := { s with inputs := rest }) v hb (hlock.mpr hl)]
  case ctrl =>
    rintro rfl hv
    rw [hstep, regAt_ctrl, State.hostWrite_ctrl_of_not_srst _ hv]
  case srst =>
    rintro rfl hv
    exact step_of_write_srst hr hv hi
  case evt =>
    rintro rfl
    rw [hstep, regAt_evt, State.hostWrite_evt]
    rfl
  case ignored =>
    have hunlocked : busyLocked (regAt off) = false := Bool.eq_false_iff.mpr (mt hlock.mp hl)
    rw [hstep, State.hostWrite_of_readOnly _ v hunlocked (regAt_ne_of_ne_offset hoff hal hctrl)
      (regAt_ne_of_ne_offset hoff hal hevt)]

/-- Settles O22: the registers read their reset fields, and both resets are the reset of the whole block. -/
theorem resetStateOfEveryRegister : Obligations.ResetStateOfEveryRegister := by
  refine ⟨fun r => ?registers, fun a => Memory.readByte_nil a, keyBytes_replicate_zero, State.irq_of_not_done rfl, rfl, rfl,
    ?time, fun s => s.softReset_eq, fun s level => State.drivePin_of_reset⟩
  case registers =>
    split_ifs with hid hversion hwindow
    · rw [hid]
      rfl
    · rw [hversion]
      rfl
    · rw [hwindow]
      rfl
    · exact State.readReg_reset_eq_zero hid hversion hwindow
  case time =>
    rw [State.operands_of_snap_none rfl]
    rfl

/-- Settles O23: SRST and a reset level of rst_n each reach the reset state in their own step, and CTRL reads IRQ_EN alone. -/
theorem softResetIsAFullReset : Obligations.SoftResetIsAFullReset := by
  refine ⟨fun s v rest => step_of_write_srst, fun s level rest h hi => ?pin, fun s => ?srstReadsZero⟩
  case pin =>
    have hreset := State.drivePin_of_reset (s := { s with inputs := rest }) h
    rw [step_of_resetPin hi, hreset]
  case srstReadsZero => exact getLsbD_flagBit_of_ne s.irqEn (by decide)

end Sys2Proof.Machine
end

section
/-! Rules of the machine's invariant: every operation that a step is made of keeps it (R13, R47, R52, R65, R127, R141). -/

namespace Sys2Proof.Machine

/-! ## Parts of the invariant -/

theorem producible_code {e : ErrorCode} (h : e ≠ .keyDerivationError) : producible e.code = true := by
  cases e with
  | keyDerivationError => contradiction
  | _ => rfl

theorem State.snapOk_iff_of_idle {s : State} (hb : s.busy = false) : s.snapOk ↔ s.snap = none := by
  rw [State.snapOk, hb, if_neg Bool.false_ne_true]

theorem State.busyOk_of_idle {s : State} (hb : s.busy = false) : s.busyOk := by
  intro hbusy
  rw [hb] at hbusy
  contradiction

theorem State.resetHeld_of_rstN {s : State} (hr : s.rstN = true) : s.resetHeld := by
  intro hlow
  rw [hr] at hlow
  contradiction

/-! ## Reset -/

/-- The reset state meets the invariant with any events on their way; while rst_n = 0 the port has to be quiet (R141). -/
theorem State.inv_reset {level : Bool} {port : PortResponse} (events : List Event) (h : level = false → port = .quiet) :
    ({ State.reset with rstN := level, inputs := events, port := port } : State).Inv where
  buf := ⟨rfl, rfl⟩
  snap := rfl
  busy := State.busyOk_of_idle rfl
  err := by simp [State.errOk, State.reset, producible]
  matchFlag := fun _ => rfl
  held := fun hlow => by
    obtain rfl := h hlow
    rfl

/-! ## The fields outside the invariant -/

/-- What is on its way to the port is no part of the invariant. -/
theorem State.Inv.setInputs {s : State} (h : s.Inv) (events : List Event) : ({ s with inputs := events } : State).Inv where
  buf := h.buf
  snap := h.snap
  busy := h.busy
  err := h.err
  matchFlag := h.matchFlag
  held := fun hlow => congrArg (fun u : State => { u with inputs := events }) (h.held hlow)

section
variable {s : State} (h : s.Inv) (hr : s.rstN = true)
include h hr

/-- With rst_n at 1 the invariant says nothing of IRQ_EN, WIGN and the port. -/
theorem State.Inv.setUnchecked (irqEn wign : Bool) (port : PortResponse) :
    ({ s with irqEn := irqEn, wign := wign, port := port } : State).Inv where
  buf := h.buf
  snap := h.snap
  busy := h.busy
  err := h.err
  matchFlag := h.matchFlag
  held := State.resetHeld_of_rstN hr

/-! ## Host writes -/

/-- A write to EVT sets no flag: a DONE that was 0 stays 0 (R22). -/
theorem State.Inv.writeEvt (v : Word) : (s.writeEvt v).Inv where
  buf := h.buf
  snap := h.snap
  busy := fun hb => by
    obtain ⟨herr, hmatched, hcode, hdone⟩ := h.busy hb
    exact ⟨herr, hmatched, hcode, by rw [State.writeEvt_done, hdone, clearedBy, Bool.false_and]⟩
  err := h.err
  matchFlag := h.matchFlag
  held := State.resetHeld_of_rstN hr

/-- The inputs of a command may change while none executes: no snapshot is held then (R13). -/
theorem State.Inv.setLiveInputs (hb : s.busy = false) (regs : OperandRegs) (key : Vector Word 8) {buf : Memory}
    (hw : buf.wf = true) (hrange : buf.inRange = true) :
    ({ s with regs := regs, key := key, buf := buf } : State).Inv where
  buf := ⟨hw, hrange⟩
  snap := (State.snapOk_iff_of_idle (by exact hb)).mpr ((State.snapOk_iff_of_idle hb).mp h.snap)
  busy := State.busyOk_of_idle hb
  err := h.err
  matchFlag := h.matchFlag
  held := State.resetHeld_of_rstN hr

/-- The start actions clear what BUSY = 1 asks to be 0, and take the snapshot (R65). -/
theorem State.Inv.startCommand (w : Word) : (s.startCommand w).Inv where
  buf := h.buf
  snap := rfl
  busy := fun _ => ⟨rfl, rfl, rfl, rfl⟩
  err := by simp [State.errOk, producible]
  matchFlag := fun _ => rfl
  held := State.resetHeld_of_rstN hr

theorem State.Inv.hostWrite (r : Reg) (v : Word) : (s.hostWrite r v).Inv := by
  obtain ⟨hw, hrange⟩ := h.buf
  have hword (i : Fin 128) : 4 * i.val + (lanes v).length ≤ Config.bufSize := by
    rw [length_lanes, Config.bufSize]
    omega
  rcases State.hostWrite_cases r v s with ⟨_, _, he⟩ | ⟨_, _, he⟩ | ⟨_, _, he⟩ | ⟨_, he⟩ | ⟨_, _, he⟩ |
    ⟨i, _, hb, he⟩ | ⟨i, _, hb, he⟩ | ⟨hb, he⟩ | he <;> rw [he]
  · exact h.setUnchecked hr s.irqEn true s.port
  · exact State.inv_reset s.inputs fun hlow => absurd (hr.symm.trans hlow) nofun
  · exact h.setUnchecked hr (v.getLsbD 0) s.wign s.port
  · exact h.writeEvt hr v
  · exact h.startCommand hr v
  · exact h.setLiveInputs hr hb s.regs _ hw hrange
  · exact h.setLiveInputs hr hb s.regs s.key (Memory.wf_write _ _ hw) (Memory.inRange_write hrange (hword i))
  · exact h.setLiveInputs hr hb _ s.key hw hrange
  · exact h

/-! ## The completions -/

theorem State.Inv.raiseError (hb : s.busy = true) {e : ErrorCode} (he : e ≠ .keyDerivationError) :
    (s.raiseError e).Inv where
  buf := h.buf
  snap := rfl
  busy := State.busyOk_of_idle rfl
  err := ⟨iff_of_true rfl e.code_ne_zero, producible_code he⟩
  matchFlag := fun hmatched => by
    obtain ⟨_, hclear, _⟩ := h.busy hb
    rw [State.raiseError_matched, hclear] at hmatched
    contradiction
  held := State.resetHeld_of_rstN hr

theorem State.Inv.commit (hb : s.busy = true) {c : Commit}
    (hc : ∀ off bs, c.mem = some (off, bs) → off + bs.length ≤ Config.bufSize) : (s.commit c).Inv where
  buf := Commit.applyMem_ok h.buf.1 h.buf.2 hc
  snap := rfl
  busy := State.busyOk_of_idle rfl
  err := h.err
  matchFlag := fun _ => (h.busy hb).1
  held := State.resetHeld_of_rstN hr

end

/-! ## The events -/

theorem engineStep_inv {s t : State} (h : s.Inv) (hstep : engineStep s = .next t) : t.Inv := by
  rcases engineStep_ends s with ⟨_, hidle⟩ | ⟨hruns, hends⟩
  · obtain rfl : s = t := Host.Outcome.next.inj (hidle.symm.trans hstep)
    exact h
  · obtain ⟨hr, hb⟩ := Bool.and_eq_true_iff.mp hruns
    rcases hends with ⟨e, hne, he⟩ | ⟨c, hfits, hc⟩
    · obtain rfl : s.raiseError e = t := Host.Outcome.next.inj (he.symm.trans hstep)
      exact h.raiseError hr hb hne
    · obtain rfl : s.commit c = t := Host.Outcome.next.inj (hc.symm.trans hstep)
      exact h.commit hr hb hfits

theorem takeAccess_inv {a : BusAccess} {s t : State} (h : s.Inv) (hstep : s.takeAccess a = .next t) : t.Inv := by
  obtain ⟨_, hr, ⟨_, rfl⟩ | ⟨v, _, rfl⟩⟩ := State.takeAccess_next hstep
  · exact h.setUnchecked hr s.irqEn s.wign _
  · exact (h.hostWrite hr _ v).setUnchecked ((State.hostWrite_rstN _ v s).trans hr) _ _ _

theorem State.Inv.drivePin {s : State} (h : s.Inv) (level : Bool) : (s.drivePin level).Inv := by
  rcases s.drivePin_cases level with ⟨_, _, he⟩ | ⟨_, he⟩ <;> rw [he]
  · exact h
  · exact State.inv_reset s.inputs fun _ => rfl

theorem step_inv {s t : State} (h : s.Inv) (hstep : step s = .next t) : t.Inv := by
  rcases step_cases hstep with ⟨u, hu, hengine⟩ | ⟨a, rest, _, haccess⟩ | ⟨level, rest, _, rfl⟩
  · rcases hu with ⟨_, rfl⟩ | ⟨rest, _, rfl⟩
    · exact engineStep_inv h hengine
    · exact engineStep_inv (h.setInputs rest) hengine
  · exact takeAccess_inv (h.setInputs rest) haccess
  · exact (h.setInputs rest).drivePin level

theorem Reachable.inv {s : State} (h : Reachable s) : s.Inv := by
  induction h with
  | reset events => exact State.inv_reset (level := true) events nofun
  | step _ hstep ih => exact step_inv ih hstep

/-! ## The report of a faulty code -/

theorem engineStep_ne_fault (s : State) (f : Fault) : engineStep s ≠ .fault f := by
  rcases engineStep_ends s with ⟨_, he⟩ | ⟨_, ⟨_, _, he⟩ | ⟨_, _, he⟩⟩ <;> rw [he] <;> nofun

/-- A code is reported as faulty only where HUBC never produces it (R127). -/
theorem State.not_producible_of_takeAccess {a : BusAccess} {s : State} {c : BitVec 8}
    (h : s.takeAccess a = .fault (.faultyErrorCode c)) : producible s.errcode = false := by
  unfold State.takeAccess at h
  split at h
  · split at h
    · rcases State.busCycle_cases a s with ⟨_, he⟩ | ⟨_, _, _, he⟩ | ⟨_, _, _, _, he⟩ <;> simp only [he] at h
      · simp at h
      all_goals
        split at h
        next hread => simpa using (Bool.and_eq_true_iff.mp hread).2
        next => contradiction
    · contradiction
  · contradiction

theorem not_producible_of_step {s : State} {c : BitVec 8} (h : step s = .fault (.faultyErrorCode c)) :
    producible s.errcode = false := by
  unfold step at h
  split at h
  · exact absurd h (engineStep_ne_fault _ _)
  · exact absurd h (engineStep_ne_fault _ _)
  next a rest _ => exact State.not_producible_of_takeAccess (s := { s with inputs := rest }) h
  · contradiction

end Sys2Proof.Machine
end

section
/-! The statements about the machine's invariant and the states that runs reach (R13, R65, R127, R139, R141). -/

namespace Sys2Proof.Machine

/-- Settles O26: a step is an engine's turn, a host access or a level of rst_n, and each of them keeps the invariant. -/
theorem everyStepKeepsTheMachineInvariant : Obligations.EveryStepKeepsTheMachineInvariant :=
  fun _ _ => step_inv

/-- Settles O27: every part of the invariant is read off the reset values. -/
theorem resetStateMeetsTheMachineInvariant : Obligations.ResetStateMeetsTheMachineInvariant :=
  fun events => State.inv_reset (level := true) events nofun

/-- Settles O28: by the invariant the code in ERRCODE is one that HUBC produces. -/
theorem noRunReportsAReservedErrorCode : Obligations.NoRunReportsAReservedErrorCode := by
  intro s c hreach hfault
  obtain ⟨_, hproducible⟩ := hreach.inv.err
  rw [not_producible_of_step hfault] at hproducible
  contradiction

end Sys2Proof.Machine
end

section
/-! Rules of command words and of the register window, from the other side: the word of a command as its OPCODE, and the offset
of a register (R15, R59, R60). -/

namespace Sys2Proof

open Sys2Proof.Machine (opcodeMap reservedOffset wf_reserved_iff regAt_key regAt_bufWord regAt_of_reservedOffset)

/-! ## Command words -/

/-- The word of each command is legal and names it: the facts of the commands, gathered. -/
theorem commandWord (i : Instr) : Laws.CommandWord.Statement i := by
  cases i
  · exact Laws.CommandWord.nop
  · exact Laws.CommandWord.cmac
  · exact Laws.CommandWord.tag
  · exact Laws.CommandWord.verify
  · exact Laws.CommandWord.ctr
  · exact Laws.CommandWord.kdf
  · exact Laws.CommandWord.kdfNum
  · exact Laws.CommandWord.ksStage1
  · exact Laws.CommandWord.ksStage2
  · exact Laws.CommandWord.ksDerive
  · exact Laws.CommandWord.parse
  · exact Laws.CommandWord.build
  · exact Laws.CommandWord.encrypt
  · exact Laws.CommandWord.decryptKnown
  · exact Laws.CommandWord.decrypt
  · exact Laws.CommandWord.findTc
  · exact Laws.CommandWord.time2tc

theorem decode_encode (i : Instr) : decode (encode i) = .ok i := by
  obtain ⟨_, hrsvd, hopcode⟩ := commandWord i
  exact (decode_eq_ok_iff _ i).mpr ⟨hrsvd, hopcode⟩

/-- A command word is its OPCODE below zeros (R59). -/
theorem toNat_encode (i : Instr) : (encode i).toNat = (opcodeOf i).toNat := by
  rw [encode, BitVec.toNat_append]
  simp

/-- The two directions of the opcode map, from the number and from the command, agree (R60). -/
theorem toNat_opcodeOf_of_mem : ∀ p ∈ opcodeMap, (opcodeOf p.2).toNat = p.1 := by decide

theorem encode_of_decode {w : Word} {i : Instr} (h : decode w = .ok i) : encode i = w := by
  obtain ⟨hrsvd, hopcode⟩ := (decode_eq_ok_iff w i).mp h
  have hnumber : (opcodeOf i).toNat = (opcodeField w).toNat :=
    toNat_opcodeOf_of_mem _ (mem_opcodeMap_of_instrOfOpcode hopcode)
  have hhigh : w.toNat / 256 = 0 := (rsvdField_eq_zero_iff w).mp hrsvd
  apply BitVec.eq_of_toNat_eq
  rw [toNat_encode, hnumber, toNat_opcodeField]
  omega

/-! ## The offsets of registers -/

/-- A register of R15 stands at an offset of the window that is a multiple of 4. -/
theorem Reg.offset_in_window {r : Reg} (h : r.wf = true) : r.offset < 4096 ∧ r.offset % 4 = 0 := by
  cases r with
  | key i | bufWord i =>
    simp only [Reg.offset]
    omega
  | reserved off =>
    obtain ⟨hal, hres⟩ := (wf_reserved_iff off).mp h
    unfold reservedOffset at hres
    simp only [Reg.offset]
    omega
  | _ => decide

theorem regAt_offset {r : Reg} (h : r.wf = true) : regAt r.offset = r := by
  cases r with
  | key i => exact regAt_key i.isLt
  | bufWord i => exact regAt_bufWord i.isLt
  | reserved off => exact regAt_of_reservedOffset ((wf_reserved_iff off).mp h).2
  | _ => rfl

end Sys2Proof
end

section
/-! The statements about encodings and about the engine's turn (R15, R60, R61). -/

namespace Sys2Proof.Machine

/-- Settles O2: RSVD and OPCODE make up the whole word, and the two directions of the opcode map agree. -/
theorem decodeAndEncodeAgree : Obligations.DecodeAndEncodeAgree :=
  ⟨fun i _ => decode_encode i, fun _ _ => encode_of_decode⟩

/-- Settles O4: the parts of the window, ID to RES_LEN, the KEY words, the BUF words and the reserved offsets, in turn. -/
theorem registerMapAndOffsetsAgree : Obligations.RegisterMapAndOffsetsAgree :=
  ⟨fun _ => regAt_correct, fun _ h => ⟨regAt_offset h, Reg.offset_in_window h⟩⟩

/-- Settles O3: each word is looked up in the opcode map. -/
theorem wordsOfTheSpecDecode : Obligations.WordsOfTheSpecDecode := by
  refine ⟨?_, ?_, ?_, ?_, ?_, ?_, ?_, ?_, ?_, ?_⟩ <;> rfl

end Sys2Proof.Machine
end

section
/-! Rules of a single step: the engine's turn, accesses that the port takes or does not take, and levels of rst_n (R50, R138,
R141). -/

namespace Sys2Proof.Machine

/-! ## The engine's turn -/

/-- The engine's turn on a legal word runs its command (R60). -/
theorem engineStep_of_legal {s : State} {i : Instr} (hr : s.rstN = true) (hb : s.busy = true) (hd : decode s.cmd = .ok i) :
    engineStep s = exec i s := by
  simp only [engineStep, hr, hb, hd, Bool.and_self, if_true]

/-- With no command executing, or while rst_n = 0, the engine's turn changes nothing (R138, R141). -/
theorem engineStep_of_idle {s : State} (h : s.rstN = false ∨ s.busy = false) : engineStep s = .next s := by
  have hstill : ¬ (s.rstN && s.busy) = true := by
    rcases h with h | h <;> simp [h]
  rw [engineStep, if_neg hstill]

/-! ## Accesses on the port -/

theorem step_of_access {s : State} {a : BusAccess} {rest : List Event} (hi : s.inputs = .access a :: rest) :
    step s = State.takeAccess a { s with inputs := rest } := by
  rw [step, hi]

/-- An access of another width, or at an offset that is no multiple of 4, gets a bus error and changes no state (R50). -/
theorem State.busCycle_of_busError (s : State) {a : BusAccess} (h : a.width ≠ 32 ∨ a.offset % 4 ≠ 0) :
    s.busCycle a = (.busError, s) := by
  have hrefused : ¬ (a.widthOk && a.aligned) = true := by
    simp only [BusAccess.widthOk, BusAccess.aligned, Bool.and_eq_true, beq_iff_eq, Config.busWidth]
    omega
  rw [State.busCycle, if_neg hrefused]

/-- A 32-bit access at a multiple of 4 is answered (R50). -/
theorem State.busCycle_ne_busError (s : State) {a : BusAccess} (hw : a.width = 32) (hal : a.offset % 4 = 0) :
    (s.busCycle a).1 ≠ .busError := by
  rcases s.busCycle_cases a with ⟨hrefused, _⟩ | ⟨_, _, _, he⟩ | ⟨_, _, _, _, he⟩
  · simp [BusAccess.widthOk, BusAccess.aligned, hw, hal] at hrefused
  · rw [he]
    nofun
  · rw [he]
    nofun

theorem inWindow_iff (a : BusAccess) : a.inWindow = true ↔ a.offset < 4096 := decide_eq_true_iff

theorem State.takeAccess_of_busError {s : State} {a : BusAccess} (h : a.width ≠ 32 ∨ a.offset % 4 ≠ 0)
    (hoff : a.offset < 4096) (hr : s.rstN = true) : s.takeAccess a = .fault (.busError a.width a.offset) := by
  rw [State.takeAccess, if_pos ((inWindow_iff a).mpr hoff), if_pos hr, State.busCycle_of_busError s h]

theorem State.takeAccess_of_outside (s : State) {a : BusAccess} (hoff : 4096 ≤ a.offset) :
    s.takeAccess a = .refused (.outsideWindow a.offset) := by
  rw [State.takeAccess, if_neg (by rw [inWindow_iff]; omega)]

/-- While rst_n = 0 an access in the window is refused (R141). -/
theorem State.takeAccess_of_reset {s : State} {a : BusAccess} (hoff : a.offset < 4096) (hr : s.rstN = false) :
    s.takeAccess a = .refused .accessDuringReset := by
  rw [State.takeAccess, if_pos ((inWindow_iff a).mpr hoff), if_neg (by rw [hr]; decide)]

theorem BusAccess.wf_iff (a : BusAccess) : a.wf = true ↔ a.width = 32 ∧ a.offset % 4 = 0 ∧ a.offset < 4096 := by
  simp [BusAccess.wf, BusAccess.widthOk, BusAccess.aligned, inWindow_iff, and_assoc]

section
variable {s : State} {a : BusAccess} (hw : a.width = 32) (hal : a.offset % 4 = 0) (hoff : a.offset < 4096)
  (hr : s.rstN = true)
include hw hal hoff hr

/-- A legal read changes nothing but the port's answer (R53), unless it finds a faulty code in ERRCODE (R127). -/
theorem State.takeAccess_of_read (hk : a.kind = .read) :
    s.takeAccess a = if readsErrcode a && !producible s.errcode then .fault (.faultyErrorCode s.errcode)
      else .next { s with port := .data (s.readReg (regAt a.offset)) } := by
  have hcycle : s.busCycle a = (.data (s.readReg (regAt a.offset)), s) := by
    simp [State.busCycle, BusAccess.widthOk, BusAccess.aligned, hw, hal, hk]
  rw [State.takeAccess, if_pos ((inWindow_iff a).mpr hoff), if_pos hr, hcycle]

/-- A legal write is acknowledged (R50, R145). -/
theorem State.takeAccess_of_write {v : Word} (hk : a.kind = .write v) :
    s.takeAccess a = .next { s.hostWrite (regAt a.offset) v with port := .ack } := by
  have hcycle : s.busCycle a = (.ack, s.hostWrite (regAt a.offset) v) := by
    simp [State.busCycle, BusAccess.widthOk, BusAccess.aligned, hw, hal, hk]
  have hread : readsErrcode a = false := by simp [readsErrcode, hk]
  rw [State.takeAccess, if_pos ((inWindow_iff a).mpr hoff), if_pos hr, hcycle, hread]
  rfl

end

theorem State.readReg_setInputs (s : State) (events : List Event) (r : Reg) :
    ({ s with inputs := events } : State).readReg r = s.readReg r := by
  cases r <;> rfl

theorem step_of_readAt {s : State} {off : Nat} {rest : List Event} (hr : s.rstN = true) (hoff : off < 4096)
    (hal : off % 4 = 0) (hcode : regAt off = .errcode → producible s.errcode = true) (hi : s.inputs = readAt off :: rest) :
    step s = .next { s with inputs := rest, port := .data (s.readReg (regAt off)) } := by
  have hlegal : ¬ (readsErrcode ⟨32, off, .read⟩ && !producible s.errcode) = true := by
    by_cases he : regAt off = .errcode
    · simp [hcode he]
    · simp [readsErrcode, he]
  rw [step_of_access hi, State.takeAccess_of_read (by rfl) (by exact hal) (by exact hoff) (by exact hr) (by rfl),
    if_neg hlegal, State.readReg_setInputs]

/-! ## Levels of rst_n -/

theorem State.drivePin_high {s : State} (hr : s.rstN = true) : s.drivePin true = s := by
  rw [State.drivePin, hr, Bool.and_self, if_pos rfl]

end Sys2Proof.Machine
end

section
/-! The statements about the engine's turn and about which accesses are taken (R50, R53, R61, R138, R141). -/

namespace Sys2Proof.Machine

/-- Settles O6: the engine's turn comes by its event or with nothing on its way, and runs what CMD holds. -/
theorem stepRunsTheStartedCommand : Obligations.StepRunsTheStartedCommand := by
  refine ⟨fun s hr hb => ⟨fun i hd => ?legal, fun e hd => ?illegal⟩, fun s hb => ?idle⟩
  case legal =>
    exact ⟨fun hi => (step_of_no_inputs hi).trans (engineStep_of_legal hr hb hd),
      fun rest hi => (step_of_engine hi).trans (engineStep_of_legal hr hb hd)⟩
  case illegal =>
    exact ⟨fun hi => (step_of_no_inputs hi).trans (engineStep_of_illegal hr hb hd),
      fun rest => step_of_engine_of_illegal hr hb hd⟩
  case idle =>
    exact ⟨fun hi => (step_of_no_inputs hi).trans (engineStep_of_idle (.inr hb)),
      fun rest hi => (step_of_engine hi).trans (engineStep_of_idle (.inr hb))⟩

/-- Settles O21: the window, rst_n, the width and the offset decide what an access gets. -/
theorem onlyAlignedWordAccessesAreTaken : Obligations.OnlyAlignedWordAccessesAreTaken := by
  refine ⟨fun s _ => s.busCycle_of_busError, fun s a rest h hoff hr hi => ?fault, fun s _ => s.busCycle_ne_busError,
    fun s a rest hoff hi => ?outside⟩
  case fault => exact (step_of_access hi).trans (State.takeAccess_of_busError h hoff hr)
  case outside => exact (step_of_access hi).trans (State.takeAccess_of_outside _ hoff)

/-- Settles O24: while rst_n = 0 nothing but its rise has an effect, and after a fall the rise finds the reset state. -/
theorem accessesAreRefusedDuringReset : Obligations.AccessesAreRefusedDuringReset := by
  refine ⟨fun s a rest hr hoff hi => ?access, fun s rest hr hi => ?engine, fun s rest hr hi => ?high, fun s rest hi => ?pulse⟩
  case access => exact (step_of_access hi).trans (State.takeAccess_of_reset hoff hr)
  case engine => exact (step_of_engine hi).trans (engineStep_of_idle (.inl hr))
  case high =>
    have hnone : State.drivePin true { s with inputs := rest } = { s with inputs := rest } := State.drivePin_high hr
    rw [step_of_resetPin hi, hnone]
  case pulse =>
    obtain ⟨_, hpin, _⟩ := softResetIsAFullReset
    rw [runFor_succ_of_step 1 (hpin s false (.resetPin true :: rest) (.inl rfl) hi)]
    exact runFor_succ_of_step 0 (hpin _ true rest (.inr rfl) rfl)

end Sys2Proof.Machine
end

section
/-! Rules of the registers: what each one reads, and what a write to an operand register changes (R18 to R38). -/

namespace Sys2Proof.Machine

/-! ## Flags and fields as numbers -/

theorem toNat_two_flags : ∀ b0 b1 : Bool, (flagBit b0 0 ||| flagBit b1 1).toNat = b0.toNat + 2 * b1.toNat := by decide

theorem toNat_three_flags : ∀ b0 b1 b2 : Bool,
    (flagBit b0 0 ||| flagBit b1 1 ||| flagBit b2 2).toNat = b0.toNat + 2 * b1.toNat + 4 * b2.toNat := by decide

theorem toNat_flagBit_zero : ∀ b : Bool, (flagBit b 0).toNat = b.toNat := by decide

/-- A field no wider than a word reads as its value (R8). -/
theorem toNat_zeroExtended {n : Nat} (field : BitVec n) (h : n ≤ 32) : (field.setWidth 32).toNat = field.toNat :=
  BitVec.toNat_setWidth_of_le h

/-- A word cut to n bits and zero-extended keeps its low n bits. -/
theorem cut_zeroExtended_eq_and (v : Word) {n : Nat} (h : n ≤ 32) :
    (v.setWidth n).setWidth 32 = v &&& BitVec.ofNat 32 (2 ^ n - 1) := by
  have hmask : 2 ^ n - 1 < 2 ^ 32 := by
    have hle : 2 ^ n ≤ 2 ^ 32 := Nat.pow_le_pow_right (by decide) h
    omega
  apply BitVec.eq_of_toNat_eq
  rw [toNat_zeroExtended _ h, BitVec.toNat_setWidth, BitVec.toNat_and, BitVec.toNat_ofNat, Nat.mod_eq_of_lt hmask,
    Nat.and_two_pow_sub_one_eq_mod]

/-! ## Writes to operand registers -/

theorem State.writeReg_operand {r : Reg} {mask : Word} (h : (r, mask) ∈ operandMasks) (s : State) (v : Word) :
    s.writeReg r v = { s with regs := s.regs.set r v } := by
  cases r with
  | keylen | srcOff | srcLen | auxOff | auxLen | dstOff | dstLen | tc | timeLo | timeHi | seq | window | ctr0 => rfl
  | _ => simp [operandMasks] at h

/-- A write to a register reaches no field of another one. -/
theorem State.readReg_set_of_ne (s : State) {r r' : Reg} (v : Word) (h : r' ≠ r) :
    ({ s with regs := s.regs.set r v } : State).readReg r' = s.readReg r' := by
  cases r' with
  | keylen | srcOff | srcLen | auxOff | auxLen | dstOff | dstLen | tc | timeLo | timeHi | seq | window | ctr0 =>
    cases r <;> trivial
  | _ => rfl

/-- An operand register reads the bits of its field in the value written to it (R23 to R34). -/
theorem State.readReg_set_same {r : Reg} {mask : Word} (h : (r, mask) ∈ operandMasks) (s : State) (v : Word) :
    ({ s with regs := s.regs.set r v } : State).readReg r = v &&& mask := by
  have hword : v = v &&& 0xFFFFFFFF := BitVec.and_allOnes.symm
  have hbyte := cut_zeroExtended_eq_and v (n := 8) (by decide)
  have hhalf := cut_zeroExtended_eq_and v (n := 16) (by decide)
  have hseq := cut_zeroExtended_eq_and v (n := 10) (by decide)
  -- the field of each register is a byte, a half word, SEQ's 10 bits or a whole word
  simp only [operandMasks, List.mem_cons, Prod.mk.injEq, List.not_mem_nil, or_false] at h
  rcases h with ⟨rfl, rfl⟩ | ⟨rfl, rfl⟩ | ⟨rfl, rfl⟩ | ⟨rfl, rfl⟩ | ⟨rfl, rfl⟩ | ⟨rfl, rfl⟩ | ⟨rfl, rfl⟩ | ⟨rfl, rfl⟩ |
    ⟨rfl, rfl⟩ | ⟨rfl, rfl⟩ | ⟨rfl, rfl⟩ | ⟨rfl, rfl⟩ | ⟨rfl, rfl⟩
  all_goals assumption

end Sys2Proof.Machine
end

section
/-! The statements about reads and about the operand registers (R18 to R38, R53). -/

namespace Sys2Proof.Machine

/-- Settles O19: a read is answered with the register's value, and each register's value is its flags or its field. -/
theorem readsChangeNothing : Obligations.ReadsChangeNothing := by
  refine ⟨fun s off rest hr hoff hal hcode hi => step_of_readAt hr hoff hal (fun _ => hcode) hi, fun s => ?flags,
    fun s => ?operands, fun s => ?results⟩
  case flags =>
    exact ⟨toNat_flagBit_zero _, toNat_three_flags _ _ _, rfl, s.toNat_readReg_errcode, toNat_two_flags _ _⟩
  case operands =>
    refine ⟨?_, ?_, ?_, ?_, ?_, ?_, ?_, rfl, rfl, rfl, ?_, ?_, rfl⟩
    all_goals exact toNat_zeroExtended _ (by decide)
  case results =>
    refine ⟨rfl, ?_, ?_, ?_⟩
    all_goals exact toNat_zeroExtended _ (by decide)

/-- Settles O16: with BUSY = 0 the write sets the register's field, which no other register reads. -/
theorem operandRegistersReadBackMasked : Obligations.OperandRegistersReadBackMasked := by
  intro s r mask v hmem hb
  rw [State.hostWrite_of_idle r v hb, State.writeReg_operand hmem]
  exact ⟨State.readReg_set_same hmem s v, fun _ hne => s.readReg_set_of_ne v hne, rfl⟩

end Sys2Proof.Machine
end

section
/-! Rules of the KEY slot as a secret: an operation of the port that starts no command carries a difference in the slot nowhere
else (R40, R133). -/

namespace Sys2Proof.Machine

/-- No command executes, no snapshot is held, and no write to CMD is on its way. -/
structure StaysIdle (s : State) : Prop where
  busy : s.busy = false
  snap : s.snap = none
  inputs : ∀ (a : BusAccess) (v : Word), .access a ∈ s.inputs → a.kind = .write v → a.offset ≠ 0x010

/-- The state with another content of the KEY slot. -/
def State.withKey (k : Vector Word 8) (s : State) : State := { s with key := k }

@[simp] theorem State.withKey_errcode (k : Vector Word 8) (s : State) : (s.withKey k).errcode = s.errcode := rfl

/-- Two outcomes that a host tells apart by the KEY slot alone: both stop alike, or both go on with states that differ only
there. -/
inductive AlikeButKey : Host.Outcome State Fault Refusal → Host.Outcome State Fault Refusal → Prop where
  | next (t : State) (k : Vector Word 8) : AlikeButKey (.next t) (.next (t.withKey k))
  | fault (f : Fault) : AlikeButKey (.fault f) (.fault f)
  | refused (f : Refusal) : AlikeButKey (.refused f) (.refused f)

/-- A read shows nothing of the slot: its words read 0 (R40). -/
theorem State.readReg_setKey (s : State) (k : Vector Word 8) (r : Reg) :
    (s.withKey k).readReg r = s.readReg r := by
  cases r <;> rfl

/-- A write carries a difference in the slot to the slot alone; only a command start copies it elsewhere. -/
theorem State.writeReg_setKey (s : State) (k : Vector Word 8) {r : Reg} (v : Word) (h : r ≠ .cmd) :
    ∃ k', (s.withKey k).writeReg r v = (s.writeReg r v).withKey k' := by
  cases r with
  | cmd => contradiction
  | key i => exact ⟨k.set i.val v, rfl⟩
  | ctrl =>
    simp only [State.writeReg, State.writeCtrl]
    split
    · exact ⟨Vector.replicate 8 0, rfl⟩
    · exact ⟨k, rfl⟩
  | _ => exact ⟨k, rfl⟩

theorem State.takeAccess_setKey {s : State} (hb : s.busy = false) (k : Vector Word 8) {a : BusAccess}
    (h : ∀ v, a.kind = .write v → a.offset ≠ 0x010) :
    AlikeButKey (s.takeAccess a) ((s.withKey k).takeAccess a) := by
  rcases Nat.lt_or_ge a.offset 4096 with hoff | hoff
  case inr =>
    rw [State.takeAccess_of_outside _ hoff, State.takeAccess_of_outside _ hoff]
    exact .refused _
  cases hr : s.rstN with
  | false =>
    rw [State.takeAccess_of_reset hoff hr, State.takeAccess_of_reset hoff (by exact hr)]
    exact .refused _
  | true =>
    by_cases hlegal : a.width = 32 ∧ a.offset % 4 = 0
    case neg =>
      have herror : a.width ≠ 32 ∨ a.offset % 4 ≠ 0 := by omega
      rw [State.takeAccess_of_busError herror hoff hr, State.takeAccess_of_busError herror hoff (by exact hr)]
      exact .fault _
    obtain ⟨hw, hal⟩ := hlegal
    cases hk : a.kind with
    | read =>
      rw [State.takeAccess_of_read hw hal hoff hr hk, State.takeAccess_of_read hw hal hoff (by exact hr) hk,
        State.readReg_setKey, State.withKey_errcode]
      split
      · exact .fault _
      · exact .next _ k
    | write v =>
      have hcmd : regAt a.offset ≠ .cmd := regAt_ne_of_ne_offset hoff hal (h v hk)
      obtain ⟨k', he⟩ := s.writeReg_setKey k v hcmd
      rw [State.takeAccess_of_write hw hal hoff hr hk, State.takeAccess_of_write hw hal hoff (by exact hr) hk,
        State.hostWrite_of_idle _ v hb, State.hostWrite_of_idle _ v (by exact hb), he]
      exact .next _ k'

theorem State.drivePin_setKey (s : State) (k : Vector Word 8) (level : Bool) :
    ∃ k', (s.withKey k).drivePin level = (s.drivePin level).withKey k' := by
  rcases s.drivePin_cases level with ⟨rfl, hr, he⟩ | ⟨hreset, _⟩
  · rw [he, State.drivePin_high (by exact hr)]
    exact ⟨k, rfl⟩
  · rw [State.drivePin_of_reset hreset, State.drivePin_of_reset (by exact hreset)]
    exact ⟨Vector.replicate 8 0, rfl⟩

/-! ## Steps and runs -/

/-- A step takes the event at the head of the queue (R54). -/
theorem step_inputs {s t : State} (h : step s = .next t) : t.inputs = s.inputs.tail := by
  rcases step_cases h with ⟨u, hu, hengine⟩ | ⟨a, rest, hi, haccess⟩ | ⟨level, rest, hi, rfl⟩
  · have htail : u.inputs = s.inputs.tail := by
      rcases hu with ⟨hi, rfl⟩ | ⟨rest, hi, rfl⟩ <;> rw [hi] <;> rfl
    rcases engineStep_ends u with ⟨_, he⟩ | ⟨_, ⟨_, _, he⟩ | ⟨_, _, he⟩⟩
    all_goals
      obtain rfl := Host.Outcome.next.inj (he.symm.trans hengine)
      exact htail
  · rw [hi]
    obtain ⟨_, _, ⟨_, rfl⟩ | ⟨v, _, rfl⟩⟩ := State.takeAccess_next haccess
    · rfl
    · exact State.hostWrite_inputs _ v { s with inputs := rest }
  · rw [hi]
    rcases State.drivePin_cases level { s with inputs := rest } with ⟨_, _, he⟩ | ⟨_, he⟩ <;> rw [he] <;> rfl

/-- A write to a register other than CMD starts nothing. -/
theorem State.writeReg_idle {s : State} (hb : s.busy = false) (hsnap : s.snap = none) {r : Reg} (v : Word) (h : r ≠ .cmd) :
    (s.writeReg r v).busy = false ∧ (s.writeReg r v).snap = none := by
  cases r with
  | cmd => contradiction
  | ctrl =>
    rw [State.writeReg, State.writeCtrl]
    split
    · exact ⟨rfl, rfl⟩
    · exact ⟨hb, hsnap⟩
  | _ => exact ⟨hb, hsnap⟩

theorem StaysIdle.step {s t : State} (h : StaysIdle s) (hstep : step s = .next t) : StaysIdle t := by
  have hinputs : ∀ (a : BusAccess) (v : Word), .access a ∈ t.inputs → a.kind = .write v → a.offset ≠ 0x010 := by
    rw [step_inputs hstep]
    exact fun a v ha => h.inputs a v (List.mem_of_mem_tail ha)
  suffices hidle : t.busy = false ∧ t.snap = none from ⟨hidle.1, hidle.2, hinputs⟩
  rcases step_cases hstep with ⟨u, hu, hengine⟩ | ⟨a, rest, hi, haccess⟩ | ⟨level, rest, _, rfl⟩
  · have hidle : u.busy = false ∧ u.snap = none := by
      rcases hu with ⟨_, rfl⟩ | ⟨_, _, rfl⟩ <;> exact ⟨h.busy, h.snap⟩
    obtain rfl : u = t := Host.Outcome.next.inj ((engineStep_of_idle (.inr hidle.1)).symm.trans hengine)
    exact hidle
  · obtain ⟨hwf, _, ⟨_, rfl⟩ | ⟨v, hk, rfl⟩⟩ := State.takeAccess_next haccess
    · exact ⟨h.busy, h.snap⟩
    · have hcmd : regAt a.offset ≠ .cmd := by
        obtain ⟨_, hal, hoff⟩ := (BusAccess.wf_iff a).mp hwf
        exact regAt_ne_of_ne_offset hoff hal (h.inputs a v (by rw [hi]; exact List.mem_cons_self) hk)
      rw [State.hostWrite_of_idle _ v (by exact h.busy)]
      exact State.writeReg_idle (s := { s with inputs := rest }) h.busy h.snap v hcmd
  · rcases State.drivePin_cases level { s with inputs := rest } with ⟨_, _, he⟩ | ⟨_, he⟩ <;> rw [he]
    · exact ⟨h.busy, h.snap⟩
    · exact ⟨rfl, rfl⟩

theorem step_alikeButKey {s : State} (h : StaysIdle s) (k : Vector Word 8) :
    AlikeButKey (step s) (step (s.withKey k)) := by
  cases hi : s.inputs with
  | nil =>
    rw [step_of_no_inputs hi, step_of_no_inputs (by exact hi), engineStep_of_idle (.inr h.busy),
      engineStep_of_idle (.inr (by exact h.busy))]
    exact .next s k
  | cons event rest =>
    cases event with
    | engine =>
      rw [step_of_engine hi, step_of_engine (by exact hi), engineStep_of_idle (.inr (by exact h.busy)),
        engineStep_of_idle (.inr (by exact h.busy))]
      exact .next _ k
    | access a =>
      rw [step_of_access hi, step_of_access (by exact hi)]
      exact State.takeAccess_setKey (s := { s with inputs := rest }) h.busy k
        fun v => h.inputs a v (by rw [hi]; exact List.mem_cons_self)
    | resetPin level =>
      rw [step_of_resetPin hi, step_of_resetPin (by exact hi)]
      obtain ⟨k', he⟩ : ∃ k', State.drivePin level { s.withKey k with inputs := rest } =
          (State.drivePin level { s with inputs := rest }).withKey k' :=
        State.drivePin_setKey { s with inputs := rest } k level
      rw [he]
      exact .next _ k'

theorem runFor_succ_of_fault {s : State} {f : Fault} (n : Nat) (h : step s = .fault f) : runFor (n + 1) s = .fault f := by
  have hcore : Sys2Proof.core.step s = .fault f := h
  simp only [runFor, Host.Core.run, hcore] <;> rfl

theorem runFor_succ_of_refused {s : State} {f : Refusal} (n : Nat) (h : step s = .refused f) :
    runFor (n + 1) s = .refused f := by
  have hcore : Sys2Proof.core.step s = .refused f := h
  simp only [runFor, Host.Core.run, hcore] <;> rfl

theorem runFor_alikeButKey (n : Nat) {s : State} (h : StaysIdle s) (k : Vector Word 8) :
    AlikeButKey (runFor n s) (runFor n (s.withKey k)) := by
  induction n generalizing s k with
  | zero => exact .next s k
  | succ n ih =>
    have halike := step_alikeButKey h k
    generalize hs : step s = o at halike
    generalize hk : step (s.withKey k) = o' at halike
    cases halike with
    | next t k' =>
      rw [runFor_succ_of_step n hs, runFor_succ_of_step n hk]
      exact ih (h.step hs) k'
    | fault f =>
      rw [runFor_succ_of_fault n hs, runFor_succ_of_fault n hk]
      exact .fault f
    | refused f =>
      rw [runFor_succ_of_refused n hs, runFor_succ_of_refused n hk]
      exact .refused f

end Sys2Proof.Machine
end

section
/-! The statement about the secrecy of the KEY slot (R40, R133). -/

namespace Sys2Proof.Machine

/-- Settles O20: by induction on the steps, the runs differ in the slot alone as long as no command is started. -/
theorem keySlotLeaksNothingThroughThePort : Obligations.KeySlotLeaksNothingThroughThePort := by
  intro n s k hb hsnap hinputs
  have halike : AlikeButKey (runFor n s) (runFor n { s with key := k }) := runFor_alikeButKey n ⟨hb, hsnap, hinputs⟩ k
  generalize runFor n s = o at halike ⊢
  generalize runFor n { s with key := k } = o' at halike ⊢
  cases halike <;> rfl

end Sys2Proof.Machine
end

section
/-! Rules of completion for every command at once: what it leaves unchanged, which codes it can report, and that the port's last
answer plays no part in it (R44, R67 to R69, R121, R125). -/

namespace Sys2Proof.Machine

/-! ## What every completion does and leaves unchanged -/

/-- The part of a completion that errors and commits share: BUSY, DONE and the snapshot, and what no command writes. -/
structure Completes (s t : State) : Prop where
  busy : t.busy = false
  done : t.done = true
  snap : t.snap = none
  regs : t.regs = s.regs
  key : t.key = s.key
  cmd : t.cmd = s.cmd
  irqEn : t.irqEn = s.irqEn
  wign : t.wign = s.wign
  rstN : t.rstN = s.rstN
  inputs : t.inputs = s.inputs
  port : t.port = s.port

theorem completes_raiseError (e : ErrorCode) (s : State) : Completes s (s.raiseError e) := by
  constructor <;> rfl

theorem completes_commit (c : Commit) (s : State) : Completes s (s.commit c) := by
  constructor <;> rfl

theorem Ends.completes {s t : State} {o : Host.Outcome State Fault Refusal} (h : Ends s o) (ho : o = .next t) :
    Completes s t := by
  rcases h with ⟨e, _, he⟩ | ⟨c, _, hc⟩
  · obtain rfl : s.raiseError e = t := Host.Outcome.next.inj (he.symm.trans ho)
    exact completes_raiseError e s
  · obtain rfl : s.commit c = t := Host.Outcome.next.inj (hc.symm.trans ho)
    exact completes_commit c s

theorem Ends.goesOn {s : State} {o : Host.Outcome State Fault Refusal} (h : Ends s o) : ∃ t, o = .next t := by
  rcases h with ⟨e, _, he⟩ | ⟨c, _, hc⟩
  · exact ⟨_, he⟩
  · exact ⟨_, hc⟩

/-- A commit of a string inside BUF leaves every byte past BUF as it was. -/
theorem Commit.readByte_applyMem_of_ge {c : Commit} (m : Memory) {a : Nat} (ha : 512 ≤ a)
    (hc : ∀ off bs, c.mem = some (off, bs) → off + bs.length ≤ Config.bufSize) :
    (c.applyMem m).readByte a = m.readByte a := by
  unfold Commit.applyMem
  split
  next => rfl
  next off bs hm => exact Memory.readByte_write_of_outside m bs (.inr ((hc off bs hm).trans ha))

theorem exec_readByte_of_ge {i : Instr} {s t : State} (h : exec i s = .next t) {a : Nat} (ha : 512 ≤ a) :
    t.buf.readByte a = s.buf.readByte a := by
  rcases exec_ends i s with ⟨e, _, he⟩ | ⟨c, hfits, hc⟩
  · obtain rfl : s.raiseError e = t := Host.Outcome.next.inj (he.symm.trans h)
    rfl
  · obtain rfl : s.commit c = t := Host.Outcome.next.inj (hc.symm.trans h)
    exact Commit.readByte_applyMem_of_ge s.buf ha hfits

/-- A commit keeps ERR and ERRCODE, and an error completion sets both (R68, R69). -/
theorem exec_err {i : Instr} {s t : State} (h : exec i s = .next t) :
    (t.err = s.err ∧ t.errcode = s.errcode) ∨ (t.err = true ∧ t.errcode ≠ 0) := by
  rcases exec_ends i s with ⟨e, _, he⟩ | ⟨c, _, hc⟩
  · obtain rfl : s.raiseError e = t := Host.Outcome.next.inj (he.symm.trans h)
    exact .inr ⟨rfl, e.code_ne_zero⟩
  · obtain rfl : s.commit c = t := Host.Outcome.next.inj (hc.symm.trans h)
    exact .inl ⟨rfl, rfl⟩

/-! ## The codes of a command -/

/-- Each row of R125 lists success, and no row lists the reserved code. -/
theorem zero_mem_codesOf (i : Instr) : 0x00 ∈ codesOf i := by
  cases i <;> decide

theorem reserved_not_mem_codesOf (i : Instr) : 0x06 ∉ codesOf i := by
  cases i <;> decide

theorem mem_codesOf_of_usesKey {i : Instr} (h : usesKey i = true) : 0x01 ∈ codesOf i := by
  cases i with
  | nop | parse | build | time2tc => contradiction
  | _ => decide

theorem mem_codesOf_of_region {i : Instr} {r : OperandRegs} {p : Nat × Nat} (h : p ∈ regionsOf i r) : 0x81 ∈ codesOf i := by
  cases i with
  | nop | time2tc => contradiction
  | _ => decide

/-- A check that R124 makes for a command is listed in the command's row of R125. -/
theorem ruleError_mem_codesOf {i : Instr} {x : Snapshot} {c : BitVec 8} (h : ruleError i x = some c) : c ∈ codesOf i := by
  unfold ruleError at h
  split_ifs at h with hkey hregion htag hpacket htime <;> obtain rfl := Option.some.inj h
  · exact mem_codesOf_of_usesKey hkey.1
  · obtain ⟨_, hmem, _⟩ := hregion
    exact mem_codesOf_of_region hmem
  · obtain ⟨rfl, _⟩ := htag
    decide
  · obtain ⟨rfl | rfl | rfl | rfl, _⟩ := hpacket <;> decide
  · obtain ⟨rfl, _⟩ := htime
    decide

theorem exec_errcode_mem_codesOf {i : Instr} {s t : State} (hs : s.errcode = 0) (h : exec i s = .next t) :
    t.errcode ∈ codesOf i := by
  obtain ⟨_, hfailed, hpassed⟩ := firstFailingCheckDecidesTheError
  cases hrule : ruleError i s.operands with
  | some c =>
    obtain rfl : s.failedWith c = t := Host.Outcome.next.inj ((hfailed i s c hrule).symm.trans h)
    exact ruleError_mem_codesOf hrule
  | none =>
    rcases hpassed i s t hrule h with ⟨_, hkept⟩ | ⟨rfl, rfl⟩ | ⟨rfl | rfl, rfl⟩
    · rw [hkept, hs]
      exact zero_mem_codesOf i
    · exact (by decide : 0x04#8 ∈ codesOf .decryptKnown)
    · exact (by decide : 0x05#8 ∈ codesOf .decrypt)
    · exact (by decide : 0x05#8 ∈ codesOf .findTc)

/-! ## The port's last answer -/

/-- The state with another answer on the port. -/
def State.withPort (answer : PortResponse) (s : State) : State := { s with port := answer }

/-- A completion leaves the port's answer out: both outcomes go on, and differ in the answer alone. -/
def AlikeButPort (answer : PortResponse) (o o' : Host.Outcome State Fault Refusal) : Prop :=
  ∃ t : State, o = .next t ∧ o' = .next (t.withPort answer)

section
variable (s : State) (answer : PortResponse)

theorem raiseError_withPort (e : ErrorCode) :
    AlikeButPort answer (.next (s.raiseError e)) (.next ((s.withPort answer).raiseError e)) := ⟨_, rfl, rfl⟩

theorem commit_withPort (c : Commit) :
    AlikeButPort answer (.next (s.commit c)) (.next ((s.withPort answer).commit c)) := ⟨_, rfl, rfl⟩

theorem validated_withPort (cs : List Check) {o o' : Host.Outcome State Fault Refusal} (h : AlikeButPort answer o o') :
    AlikeButPort answer (validated s cs o) (validated (s.withPort answer) cs o') := by
  unfold validated
  split
  next e _ => exact raiseError_withPort s answer e
  next => exact h

theorem validated_commit_withPort (cs : List Check) (c : Commit) :
    AlikeButPort answer (validated s cs (.next (s.commit c)))
      (validated (s.withPort answer) cs (.next ((s.withPort answer).commit c))) :=
  validated_withPort s answer cs (commit_withPort s answer c)

theorem validated_attempt_withPort (cs : List Check) (e : ErrorCode) (found : Option Opened) (c : Opened → Commit) :
    AlikeButPort answer (validated s cs (attempted s e found c))
      (validated (s.withPort answer) cs (attempted (s.withPort answer) e found c)) := by
  refine validated_withPort s answer cs ?_
  cases found with
  | none => exact raiseError_withPort s answer e
  | some r => exact commit_withPort s answer (c r)

/-- No command reads the port's answer. -/
theorem exec_withPort (i : Instr) : AlikeButPort answer (exec i s) (exec i (s.withPort answer)) := by
  cases i with
  | nop => exact commit_withPort s answer {}
  | cmac => exact validated_commit_withPort s answer (cmacChecks s.operands) _
  | tag => exact validated_commit_withPort s answer (tagChecks s.operands) _
  | verify => exact validated_commit_withPort s answer (verifyChecks s.operands) _
  | ctr => exact validated_commit_withPort s answer (ctrChecks s.operands) _
  | kdf => exact validated_commit_withPort s answer (kdfChecks s.operands) _
  | kdfNum => exact validated_commit_withPort s answer (kdfNumChecks s.operands) _
  | ksStage1 => exact validated_commit_withPort s answer (ksStage1Checks s.operands) _
  | ksStage2 => exact validated_commit_withPort s answer (ksStage2Checks s.operands) _
  | ksDerive => exact validated_commit_withPort s answer (ksDeriveChecks s.operands) _
  | parse => exact validated_commit_withPort s answer (parseChecks s.operands) _
  | build => exact validated_commit_withPort s answer (buildChecks s.operands) _
  | encrypt => exact validated_commit_withPort s answer (encryptChecks s.operands) _
  | decryptKnown => exact validated_attempt_withPort s answer (decryptKnownChecks s.operands) _ _ _
  | decrypt => exact validated_attempt_withPort s answer (decryptChecks s.operands) _ _ _
  | findTc => exact validated_attempt_withPort s answer (findTcChecks s.operands) _ _ _
  | time2tc => exact validated_commit_withPort s answer (time2tcChecks s.operands) _

end

theorem engineStep_withPort {s t : State} (answer : PortResponse) (h : engineStep s = .next t) :
    engineStep (s.withPort answer) = .next (t.withPort answer) := by
  suffices halike : AlikeButPort answer (engineStep s) (engineStep (s.withPort answer)) by
    obtain ⟨t', ht', hport⟩ := halike
    obtain rfl : t = t' := Host.Outcome.next.inj (h.symm.trans ht')
    exact hport
  by_cases hruns : s.rstN = true ∧ s.busy = true
  · obtain ⟨hr, hb⟩ := hruns
    cases hd : decode s.cmd with
    | ok i =>
      rw [engineStep_of_legal hr hb hd, engineStep_of_legal (by exact hr) (by exact hb) (by exact hd)]
      exact exec_withPort s answer i
    | error e =>
      rw [engineStep_of_illegal hr hb hd, engineStep_of_illegal (by exact hr) (by exact hb) (by exact hd)]
      exact ⟨_, rfl, rfl⟩
  · have hidle : s.rstN = false ∨ s.busy = false :=
      (not_and_or.mp hruns).imp Bool.eq_false_of_not_eq_true Bool.eq_false_of_not_eq_true
    rw [engineStep_of_idle hidle, engineStep_of_idle (by exact hidle)]
    exact ⟨s, rfl, rfl⟩

/-! ## Waiting for a command -/

theorem regAt_status : regAt 0x00C = .status := rfl

/-- A poll of STATUS changes the port's answer alone (R53). -/
theorem step_of_poll {s : State} {rest : List Event} (hr : s.rstN = true)
    (hi : s.inputs = hostReadOf .status :: rest) :
    step s = .next { s with inputs := rest, port := .data s.statusWord } := by
  rw [step_of_readAt (off := 0x00C) hr (by decide) (by decide) (by rw [regAt_status]; nofun) hi]
  rfl

/-- The polls before the completion leave no trace: whatever the port said last, WAIT ends with the completed state and the
answer of its last poll. -/
theorem runFor_hostWait {s t : State} {rest : List Event} (hr : s.rstN = true)
    (hengine : engineStep { s with inputs := hostReadOf .status :: rest } = .next t) (htr : t.rstN = true)
    (hti : t.inputs = hostReadOf .status :: rest) (k : Nat) (answer : PortResponse) :
    runFor (k + 2) (State.withPort answer { s with inputs := hostWait k ++ rest }) =
      .next { t with inputs := rest, port := .data t.statusWord } := by
  induction k generalizing answer with
  | zero =>
    have hcompletes : step (State.withPort answer { s with inputs := hostWait 0 ++ rest }) = .next (t.withPort answer) := by
      rw [step_of_engine (rest := hostReadOf .status :: rest) rfl]
      exact engineStep_withPort answer hengine
    rw [runFor_succ_of_step 1 hcompletes]
    exact runFor_succ_of_step 0 (step_of_poll htr hti)
  | succ k ih =>
    have hpoll := step_of_poll (s := State.withPort answer { s with inputs := hostWait (k + 1) ++ rest })
      (rest := hostWait k ++ rest) hr rfl
    rw [runFor_succ_of_step (k + 2) hpoll]
    exact ih _

end Sys2Proof.Machine
end

section
/-! The statements about the completion of every command (R44, R67 to R69, R119, R121, R125, R150). -/

namespace Sys2Proof.Machine

/-- Settles O8: a command ends in an error or in a commit, and both complete. -/
theorem everyCommandCompletes : Obligations.EveryCommandCompletes := by
  intro i s
  obtain ⟨t, hexec⟩ := (exec_ends i s).goesOn
  have hcompletes := (exec_ends i s).completes hexec
  exact ⟨t, hexec, hcompletes.busy, hcompletes.done, hcompletes.snap, exec_err hexec⟩

/-- Settles O9: both completions keep these fields, and a commit writes inside BUF. -/
theorem noCommandWritesOperandsOrKey : Obligations.NoCommandWritesOperandsOrKey := by
  intro i s t hexec
  have hkept := (exec_ends i s).completes hexec
  exact ⟨hkept.regs, hkept.key, hkept.cmd, hkept.irqEn, hkept.wign, hkept.rstN, hkept.inputs, hkept.port,
    fun _ => exec_readByte_of_ge hexec⟩

/-- Settles O13: the code is 0 still, or that of a failing check of the command, or that of its attempt or search. -/
theorem commandsReportOnlyTheirCodes : Obligations.CommandsReportOnlyTheirCodes := by
  intro i s t hs hexec
  have hmem := exec_errcode_mem_codesOf hs hexec
  exact ⟨hmem, fun hreserved => reserved_not_mem_codesOf i (hreserved ▸ hmem)⟩

/-- Settles O29: each poll only changes the port's answer, which the completion does not read and the last poll replaces. -/
theorem waitEndsAlikeForEveryLatency : Obligations.WaitEndsAlikeForEveryLatency := by
  intro s rest k _ hr hb
  obtain ⟨t, hengine, hcompletes⟩ : ∃ t, engineStep { s with inputs := hostReadOf .status :: rest } = .next t ∧
      Completes { s with inputs := hostReadOf .status :: rest } t := by
    rcases engineStep_ends { s with inputs := hostReadOf .status :: rest } with ⟨hidle, _⟩ | ⟨_, hends⟩
    · simp [hr, hb] at hidle
    · obtain ⟨t, ht⟩ := hends.goesOn
      exact ⟨t, ht, hends.completes ht⟩
  have hwait (n : Nat) := runFor_hostWait hr hengine (hcompletes.rstN.trans hr) hcompletes.inputs n s.port
  exact ⟨(hwait k).trans (hwait 0).symm, _, hwait k, hcompletes.busy, rfl, rfl⟩

/-- Settles O46: NOP is an empty commit. -/
theorem nopCompletesAndWritesNothing : Obligations.NopCompletesAndWritesNothing := fun _ => rfl

end Sys2Proof.Machine
end

section
/-! Rules of canonical memories: the first byte a list holds, and a list as the bytes it reads (R47). -/

namespace Sys2Proof.Machine

/-- The canonical form of a list with a first entry: the entry is not 0x00, and the others rise above it. -/
theorem Memory.wf_cons_iff {a : Nat} {v : Byte} {rest : Memory} :
    Memory.wf ((a, v) :: rest) = true ↔ v ≠ unlistedByte ∧ Memory.risesFrom (some a) rest = true ∧ rest.wf = true := by
  constructor
  · intro h
    simp only [Memory.wf, Memory.risesFrom, List.all_cons, Bool.true_and, Bool.and_eq_true, bne_iff_ne] at h ⊢
    obtain ⟨hrises, hv, hall⟩ := h
    exact ⟨hv, hrises, Memory.risesFrom_none hrises, hall⟩
  · rintro ⟨hv, hrises, hwf⟩
    simp only [Memory.wf, Memory.risesFrom, List.all_cons, Bool.true_and, Bool.and_eq_true, bne_iff_ne] at hwf ⊢
    exact ⟨hrises, hv, hwf.2⟩

theorem Memory.readByte_cons_self (a : Nat) (v : Byte) (rest : Memory) : Memory.readByte ((a, v) :: rest) a = v :=
  if_pos rfl

theorem Memory.readByte_cons_of_ne {a b : Nat} (v : Byte) (rest : Memory) (h : a ≠ b) :
    Memory.readByte ((b, v) :: rest) a = Memory.readByte rest a :=
  if_neg h

/-- Below its first entry a canonical list reads 0x00. -/
theorem Memory.readByte_cons_of_lt {a b : Nat} {v : Byte} {rest : Memory} (h : Memory.wf ((b, v) :: rest) = true)
    (hlt : a < b) : Memory.readByte ((b, v) :: rest) a = unlistedByte := by
  obtain ⟨_, hrises, _⟩ := Memory.wf_cons_iff.mp h
  rw [Memory.readByte_cons_of_ne v rest hlt.ne]
  exact Memory.readByte_of_risesFrom hrises hlt.le

/-- A canonical list that reads as an empty one has no first entry. -/
theorem Memory.eq_nil_of_readByte {m : Memory} (h : m.wf = true) (hzero : ∀ a, m.readByte a = unlistedByte) : m = [] := by
  cases m with
  | nil => rfl
  | cons c rest =>
    obtain ⟨a, v⟩ := c
    obtain ⟨hv, _⟩ := Memory.wf_cons_iff.mp h
    exact absurd ((Memory.readByte_cons_self a v rest).symm.trans (hzero a)) hv

/-- A first entry that comes before the other list's shows in what is read at its address. -/
theorem Memory.not_lt_of_readByte {a b : Nat} {v w : Byte} {rest rest' : Memory} (h : Memory.wf ((a, v) :: rest) = true)
    (h' : Memory.wf ((b, w) :: rest') = true)
    (hread : ∀ x, Memory.readByte ((a, v) :: rest) x = Memory.readByte ((b, w) :: rest') x) : ¬ a < b := by
  intro hlt
  obtain ⟨hv, _⟩ := Memory.wf_cons_iff.mp h
  have hat := hread a
  rw [Memory.readByte_cons_self, Memory.readByte_cons_of_lt h' hlt] at hat
  exact hv hat

theorem Memory.ext_readByte {m m' : Memory} (h : m.wf = true) (h' : m'.wf = true)
    (hread : ∀ a, m.readByte a = m'.readByte a) : m = m' := by
  induction m generalizing m' with
  | nil => exact (Memory.eq_nil_of_readByte h' fun a => (hread a).symm).symm
  | cons c rest ih =>
    cases m' with
    | nil => exact Memory.eq_nil_of_readByte h hread
    | cons c' rest' =>
      obtain ⟨a, v⟩ := c
      obtain ⟨b, w⟩ := c'
      have hab : ¬ a < b := Memory.not_lt_of_readByte h h' hread
      have hba : ¬ b < a := Memory.not_lt_of_readByte h' h fun x => (hread x).symm
      obtain rfl : a = b := by omega
      obtain rfl : v = w := by
        have hat := hread a
        rwa [Memory.readByte_cons_self, Memory.readByte_cons_self] at hat
      obtain ⟨_, hrises, hwf⟩ := Memory.wf_cons_iff.mp h
      obtain ⟨_, hrises', hwf'⟩ := Memory.wf_cons_iff.mp h'
      rw [ih hwf hwf' fun x => ?tail]
      case tail =>
        by_cases hx : x = a
        · subst hx
          rw [Memory.readByte_of_risesFrom hrises le_rfl, Memory.readByte_of_risesFrom hrises' le_rfl]
        · have hat := hread x
          rwa [Memory.readByte_cons_of_ne v rest hx, Memory.readByte_cons_of_ne v rest' hx] at hat

end Sys2Proof.Machine
end

section
/-! Rules of the S-box and of comparing tags (R76, R87). -/

namespace Sys2Proof.Machine

/-! ## The S-box -/

/-- The affine map of R76. -/
def affine (b : Byte) : Byte := b ^^^ b.rotateLeft 1 ^^^ b.rotateLeft 2 ^^^ b.rotateLeft 3 ^^^ b.rotateLeft 4 ^^^ 0x63

/-- The inverse of the affine map. -/
def affineInverse (y : Byte) : Byte := y.rotateLeft 1 ^^^ y.rotateLeft 3 ^^^ y.rotateLeft 6 ^^^ 0x05

theorem affine_affineInverse : ∀ y : Byte, affine (affineInverse y) = y := by decide

/-- The S-box, with its affine map undone, is the inverse of the field (R74, R76). -/
theorem gmul_affineInverse_sbox : ∀ x : Byte,
    (x = 0 ∧ affineInverse (sbox x) = 0) ∨ gmul x (affineInverse (sbox x)) = 1 := by decide

/-! ## Comparing tags -/

/-- The comparison gathers the differing bits of all bytes: it ends with 0 where none differs (R87). -/
theorem foldl_or_eq_zero_iff (s : Bytes) (acc : Byte) : s.foldl (· ||| ·) acc = 0#8 ↔ acc = 0#8 ∧ ∀ d ∈ s, d = 0#8 := by
  induction s generalizing acc with
  | nil => simp
  | cons b s ih => rw [List.foldl_cons, ih, BitVec.or_eq_zero_iff, List.forall_mem_cons, and_assoc]

/-- Strings of one length are equal exactly when no byte of their difference is set. -/
theorem xorBytes_all_zero_iff {a b : Bytes} (h : a.length = b.length) : (∀ d ∈ xorBytes a b, d = 0#8) ↔ a = b := by
  induction a generalizing b with
  | nil =>
    obtain rfl : b = [] := List.length_eq_zero_iff.mp h.symm
    simp [xorBytes]
  | cons x a ih =>
    cases b with
    | nil => simp at h
    | cons y b =>
      have htail := ih (b := b) (Nat.succ.inj h)
      rw [xorBytes] at htail ⊢
      rw [List.zipWith_cons_cons, List.forall_mem_cons, htail, List.cons.injEq, BitVec.xor_eq_zero_iff]

theorem ctEq_iff {a b : Bytes} (h : a.length = b.length) : ctEq a b = true ↔ a = b := by
  rw [ctEq, beq_iff_eq, foldl_or_eq_zero_iff, xorBytes_all_zero_iff h, and_iff_right rfl]

end Sys2Proof.Machine
end

section
/-! The statements about canonical memories, the S-box and the comparison of tags (R47, R76, R87). -/

namespace Sys2Proof.Machine

/-- Settles O30: by induction on the lists, whose first entries show in what is read at their addresses. -/
theorem canonicalMemoriesThatReadAlikeAreEqual : Obligations.CanonicalMemoriesThatReadAlikeAreEqual :=
  fun _ _ => Memory.ext_readByte

/-- Settles O31: the value sought is the S-box's with its affine map undone. -/
theorem sboxIsTheAffineImageOfTheInverse : Obligations.SboxIsTheAffineImageOfTheInverse :=
  fun x => ⟨affineInverse (sbox x), gmul_affineInverse_sbox x, (affine_affineInverse (sbox x)).symm⟩

/-- Settles O35: the bits gathered are those of the bytes' differences. -/
theorem tagComparisonIsEquality : Obligations.TagComparisonIsEquality :=
  fun _ _ ha hb => ctEq_iff (ha.trans hb.symm)

end Sys2Proof.Machine
end

section
/-! Rules of an attempt: where the fields of a packet stand, when its tag verifies, and what it opens (R101 to R103, R107, R111). -/

namespace Sys2Proof.Machine

/-! ## The fields of a packet -/

theorem header6_eq_take (raw : Bytes) : header6 raw = raw.take 6 := rfl

theorem packetTag_eq_take_drop (raw : Bytes) : packetTag raw = (raw.drop 6).take 4 := rfl

theorem packetPayload_eq_drop (raw : Bytes) : packetPayload raw = raw.drop 10 := by
  rw [packetPayload, slice, ← List.length_drop, List.take_length]

theorem length_packetTag {raw : Bytes} (h : 10 ≤ raw.length) : (packetTag raw).length = 4 :=
  length_slice_of_le raw h

/-- A slice within the first string of two is a slice of that string. -/
theorem slice_append_left {x : Bytes} (y : Bytes) (a : Nat) {b : Nat} (h : b ≤ x.length) :
    slice (x ++ y) a b = slice x a b := by
  rw [slice, slice, ← List.drop_take, ← List.drop_take, List.take_append_of_le_length h]

theorem packetPayload_append {head : Bytes} (p : Bytes) (h : head.length = 10) : packetPayload (head ++ p) = p := by
  rw [packetPayload_eq_drop, List.drop_left' h]

/-- The MAC input of a built packet is its six header bytes (R103). -/
theorem header6_buildPacket (s : BitVec 10) (tag ct : Bytes) : header6 (buildPacket s tag ct) = be16 s.toNat ++ zeros 4 := rfl

/-! ## An attempt -/

theorem tagOf_eq_take (key m : Bytes) : tagOf key m = (cmac key m).take 4 := rfl

theorem be32_zero : be32 0 = [0x00, 0x00, 0x00, 0x00] := by decide

/-- What an attempt opens when the tag verifies (R107). -/
def openedAt (mk raw : Bytes) (c : Word) : Opened :=
  ⟨ctrCipher (schedule mk c (packetSeq raw)).ek ((schedule mk c (packetSeq raw)).nonce ++ be32 0) (packetPayload raw), c,
    packetSeq raw⟩

theorem tryDecrypt_eq_ite (mk : Bytes) {raw : Bytes} (c : Word) (h : 10 ≤ raw.length) :
    tryDecrypt mk raw c =
      if tagOf (schedule mk c (packetSeq raw)).ek (header6 raw) = packetTag raw then some (openedAt mk raw c) else none := by
  have hlen : (tagOf (schedule mk c (packetSeq raw)).ek (header6 raw)).length = (packetTag raw).length :=
    (length_tagOf _ _).trans (length_packetTag h).symm
  simp only [tryDecrypt, ctEq_iff hlen]
  rfl

theorem tryDecrypt_eq_some_iff {mk raw : Bytes} {c : Word} {r : Opened} (h : 10 ≤ raw.length) :
    tryDecrypt mk raw c = some r ↔
      tagOf (schedule mk c (packetSeq raw)).ek (header6 raw) = packetTag raw ∧ openedAt mk raw c = r := by
  rw [tryDecrypt_eq_ite mk c h]
  split <;> simp_all

theorem isSome_tryDecrypt_iff {mk raw : Bytes} {c : Word} (h : 10 ≤ raw.length) :
    (tryDecrypt mk raw c).isSome = true ↔ tagOf (schedule mk c (packetSeq raw)).ek (header6 raw) = packetTag raw := by
  rw [tryDecrypt_eq_ite mk c h]
  split <;> simp_all

/-! ## The round trip -/

theorem le_length_encryptPacket (mk : Bytes) (t : Word) (s : BitVec 10) (pt : Bytes) :
    10 ≤ (encryptPacket mk t s pt).length := by
  rw [encryptPacket, length_buildPacket s (length_tagOf _ _)]
  omega

/-- The attempt at the counter a packet was made with opens it: the tag is over the header that the packet shows, and the cipher
is its own inverse (R107, R111). -/
theorem tryDecrypt_encryptPacket (mk pt : Bytes) (t : Word) (s : BitVec 10) :
    tryDecrypt mk (encryptPacket mk t s pt) t = some ⟨pt, t, s⟩ := by
  rw [tryDecrypt_eq_some_iff (le_length_encryptPacket mk t s pt)]
  have htag := length_tagOf (schedule mk t s).ek (be16 s.toNat ++ zeros 4)
  simp only [encryptPacket, openedAt, packetSeq_buildPacket, header6_buildPacket, packetTag_buildPacket _ _ htag,
    packetPayload_buildPacket _ _ htag, ctrCipher_ctrCipher, and_self]

/-! ## A changed payload -/

theorem xor_mask_cancel (a b mask : Byte) : (a ^^^ mask) ^^^ (b ^^^ mask) = a ^^^ b := by
  rw [BitVec.xor_comm b, BitVec.xor_assoc, ← BitVec.xor_assoc mask, BitVec.xor_self, BitVec.zero_xor]

/-- A keystream that covers two strings leaves their difference (R82). -/
theorem xorBytes_xorBytes_cancel {p q k : Bytes} (hp : p.length ≤ k.length) (hq : q.length ≤ k.length) :
    xorBytes (xorBytes p k) (xorBytes q k) = xorBytes p q := by
  apply List.ext_getElem
  · simp only [length_xorBytes]
    omega
  · intro i _ _
    simp only [xorBytes, List.getElem_zipWith, xor_mask_cancel]

theorem xorBytes_ctrCipher (key cb0 : Bytes) {p q : Bytes} (h : p.length = q.length) :
    xorBytes (ctrCipher key cb0 p) (ctrCipher key cb0 q) = xorBytes p q := by
  have hcover : p.length ≤ (keystream key (blocksOf p.length) (intBe cb0)).length := by
    rw [length_keystream]
    exact le_blocksOf p.length
  rw [ctrCipher, ctrCipher, ← h]
  exact xorBytes_xorBytes_cancel hcover (h ▸ hcover)

/-- The first 10 bytes of a packet hold all that its tag is checked with. -/
theorem packetSeq_append {head : Bytes} (p : Bytes) (h : head.length = 10) : packetSeq (head ++ p) = packetSeq head := by
  rw [packetSeq, packetSeq, slice_append_left p 0 (by omega)]

theorem header6_append {head : Bytes} (p : Bytes) (h : head.length = 10) : header6 (head ++ p) = header6 head :=
  slice_append_left p 0 (by rw [h]; decide)

theorem packetTag_append {head : Bytes} (p : Bytes) (h : head.length = 10) : packetTag (head ++ p) = packetTag head :=
  slice_append_left p 6 h.ge

end Sys2Proof.Machine
end

section
/-! The statements about the round trip and about the payload (R118). -/

namespace Sys2Proof.Machine

/-- Settles O44: the packet's own counter is in the window and opens it, and no earlier candidate does. -/
theorem searchDecryptsWhatEncryptMade : Obligations.SearchDecryptsWhatEncryptMade := by
  intro mk pt t s time w _ _ hlow hhigh hnone
  rw [search, searchIn_eq_some_iff (candidates_ascending time w)]
  exact ⟨t, mem_candidates.mpr ⟨hlow, hhigh⟩, tryDecrypt_encryptPacket mk pt t s, hnone⟩

/-- Settles O45: the check sees the first 10 bytes only, and one keystream ciphers both payloads. -/
theorem payloadIsNotAuthenticated : Obligations.PayloadIsNotAuthenticated := by
  intro mk head p q c hhead hlen
  have hlong (tail : Bytes) : 10 ≤ (head ++ tail).length := by
    rw [List.length_append]
    omega
  refine ⟨?alike, fun r r' hr hr' => ?plaintexts⟩
  case alike =>
    rw [Bool.eq_iff_iff, isSome_tryDecrypt_iff (hlong p), isSome_tryDecrypt_iff (hlong q)]
    simp only [packetSeq_append _ hhead, header6_append _ hhead, packetTag_append _ hhead]
  case plaintexts =>
    obtain ⟨_, rfl⟩ := (tryDecrypt_eq_some_iff (hlong p)).mp hr
    obtain ⟨_, rfl⟩ := (tryDecrypt_eq_some_iff (hlong q)).mp hr'
    simp only [openedAt, packetSeq_append _ hhead, packetPayload_append _ hhead, xorBytes_ctrCipher _ _ hlen, and_self]

end Sys2Proof.Machine
end

section
/-! Rules of the completion of one command: when its checks pass, what it then answers, and a string stored in BUF (R52, R62, R66
to R69). -/

namespace Sys2Proof.Machine

/-! ## Checks that pass -/

section
variable {x : Snapshot}

theorem Snapshot.keyCheck_ok_iff : x.keyCheck.ok = true ↔ KeyLegal x := by
  rw [← not_iff_not, Bool.not_eq_true, x.keyCheck_fails_iff, KeyLegal, not_or]

theorem Snapshot.src_check_ok_iff {n : Nat} : (x.src n).check.ok = true ↔ Fits x.regs.srcOff n := Region.check_ok _

theorem Snapshot.aux_check_ok_iff {n : Nat} : (x.aux n).check.ok = true ↔ Fits x.regs.auxOff n := Region.check_ok _

theorem Snapshot.dst_check_ok_iff {n : Nat} : (x.dst n).check.ok = true ↔ Fits x.regs.dstOff n := Region.check_ok _

theorem Snapshot.tagLengthCheck_ok_iff : x.tagLengthCheck.ok = true ↔ x.regs.auxLen = 4 := by
  rw [← not_iff_not, Bool.not_eq_true, x.tagLengthCheck_fails_iff]

theorem Snapshot.packetCheck_ok_iff : x.packetCheck.ok = true ↔ 10 ≤ x.regs.srcLen.toNat := decide_eq_true_iff

end

theorem firstFailure_cons_iff {c : Check} {cs : List Check} :
    firstFailure (c :: cs) = none ↔ c.ok = true ∧ firstFailure cs = none := by
  rw [firstFailure_eq_none, firstFailure_eq_none, List.forall_mem_cons]

theorem firstFailure_cons_of_ok {c : Check} {cs : List Check} (hc : c.ok = true) (hcs : firstFailure cs = none) :
    firstFailure (c :: cs) = none :=
  firstFailure_cons_iff.mpr ⟨hc, hcs⟩

/-- A legal key has the length that KEYLEN gives (R41). -/
theorem length_opKey_of_keyLegal {x : Snapshot} (h : KeyLegal x) : x.opKey.length = x.regs.keylen.toNat :=
  length_opKey_of_keySizeOk (Snapshot.keyCheck_ok_iff.mpr h)

/-! ## What a command answers then -/

theorem validated_of_passed {s : State} {cs : List Check} {o : Host.Outcome State Fault Refusal}
    (h : firstFailure cs = none) : validated s cs o = o := by
  rw [validated, h]

/-- A command that looks for an authentic packet and does not report an error has found one. -/
theorem validated_attempt_of_no_err {s t : State} {cs : List Check} {e : ErrorCode} {found : Option Opened}
    {c : Opened → Commit} (h : validated s cs (attempted s e found c) = .next t) (herr : t.err = false) :
    firstFailure cs = none ∧ ∃ r, found = some r ∧ t = s.commit (c r) := by
  unfold validated at h
  split at h
  next e' _ =>
    obtain rfl := Host.Outcome.next.inj h
    contradiction
  next hpass =>
    cases found with
    | none =>
      obtain rfl := Host.Outcome.next.inj h
      contradiction
    | some r => exact ⟨hpass, r, rfl, (Host.Outcome.next.inj h).symm⟩

/-! ## Strings in BUF -/

theorem wrote_write {m : Memory} (off : Nat) (bs : Bytes) (h : m.wf = true) : Wrote m (m.write off bs) off bs :=
  ⟨fun i hi => Memory.readByte_write_of_inside off bs i hi h, fun _ => m.readByte_write_of_outside bs⟩

/-- The outcome is a completion that stores the string at the offset and changes nothing else but BUSY and DONE. -/
def Stores (s : State) (o : Host.Outcome State Fault Refusal) (off : Nat) (bs : Bytes) : Prop :=
  ∃ t, o = .next t ∧ Wrote s.buf t.buf off bs ∧ t = { s.finished with buf := t.buf }

theorem stores_of_passed {s : State} {cs : List Check} {off : Nat} {bs : Bytes} (hm : s.buf.wf = true)
    (hpass : firstFailure cs = none) : Stores s (validated s cs (.next (s.commit { mem := some (off, bs) }))) off bs :=
  ⟨_, validated_of_passed hpass, wrote_write off bs hm, rfl⟩

theorem Stores.of_eq {s : State} {o : Host.Outcome State Fault Refusal} {off : Nat} {bs bs' : Bytes}
    (h : Stores s o off bs) (he : bs = bs') : Stores s o off bs' :=
  he ▸ h

theorem Memory.take_read (m : Memory) {off n k : Nat} (h : k ≤ n) : (m.read off n).take k = m.read off k := by
  apply List.ext_getElem
  · simp [h]
  · intro i _ _
    rw [List.getElem_take, Memory.getElem_read, Memory.getElem_read]

/-- Of two strings stored one after the other, each reads back from its place. -/
theorem Memory.read_write_append_left {m : Memory} (off : Nat) (a b : Bytes) (h : m.wf = true) :
    (m.write off (a ++ b)).read off a.length = a := by
  rw [← Memory.take_read _ (n := (a ++ b).length) (by simp), Memory.read_write_self off _ h, List.take_left]

theorem Memory.read_write_append_right {m : Memory} (off : Nat) (a b : Bytes) (h : m.wf = true) :
    (m.write off (a ++ b)).read (off + a.length) b.length = b := by
  apply List.ext_getElem (Memory.length_read _ _ _)
  intro i _ hi
  have hin : a.length + i < (a ++ b).length := by
    rw [List.length_append]
    omega
  rw [Memory.getElem_read, Nat.add_assoc, Memory.readByte_write_of_inside off (a ++ b) (a.length + i) hin h,
    List.getElem_append_right (by omega)]
  simp

end Sys2Proof.Machine
end

section
/-! The statements about the commands of the primitives and of the KDF (R83 to R86, R93, R94). -/

namespace Sys2Proof.Machine

/-- Settles O47: the checks pass, and the commit stores the MAC or its first 4 bytes. -/
theorem cmacAndTagStoreTheMac : Obligations.CmacAndTagStoreTheMac := by
  rintro s x rfl hm hkey hsrc
  have hpass (n : Nat) (h : Fits s.operands.regs.dstOff n) :
      firstFailure [s.operands.keyCheck, (s.operands.src s.operands.srcLen).check, (s.operands.dst n).check] = none :=
    firstFailure_cons_of_ok (Snapshot.keyCheck_ok_iff.mpr hkey) <|
    firstFailure_cons_of_ok (Snapshot.src_check_ok_iff.mpr hsrc) <|
    firstFailure_cons_of_ok (Snapshot.dst_check_ok_iff.mpr h) rfl
  exact ⟨fun hdst => stores_of_passed hm (hpass 16 hdst), fun hdst => stores_of_passed hm (hpass 4 hdst)⟩

/-- Settles O48: the checks pass, and the comparison of the two 4-byte tags is their equality. -/
theorem verifySetsMatchToTagEquality : Obligations.VerifySetsMatchToTagEquality := by
  rintro s x rfl hkey hsrc haux hlen
  have hauxLen : s.operands.auxLen = 4 := congrArg BitVec.toNat hlen
  have hpass : firstFailure (verifyChecks s.operands) = none :=
    firstFailure_cons_of_ok (Snapshot.keyCheck_ok_iff.mpr hkey) <|
    firstFailure_cons_of_ok (Snapshot.src_check_ok_iff.mpr hsrc) <|
    firstFailure_cons_of_ok (Snapshot.aux_check_ok_iff.mpr (hauxLen ▸ haux)) <|
    firstFailure_cons_of_ok (Snapshot.tagLengthCheck_ok_iff.mpr hlen) rfl
  have hexec : exec .verify s = .next (s.commit { matched := some (ctEq (tagOf s.operands.opKey s.operands.srcBytes)
      (s.operands.buf.read s.operands.regs.auxOff.toNat 4)) }) := validated_of_passed hpass
  have heq : ctEq (tagOf s.operands.opKey s.operands.srcBytes) (s.operands.buf.read s.operands.regs.auxOff.toNat 4) =
      decide (tagOf s.operands.opKey s.operands.srcBytes = s.operands.buf.read s.operands.regs.auxOff.toNat 4) := by
    rw [Bool.eq_iff_iff, ctEq_iff (by simp), decide_eq_true_iff]
  rw [hexec, heq]
  rfl

/-- Settles O49: the checks pass, and the commit stores the ciphered data. -/
theorem ctrStoresTheCipheredData : Obligations.CtrStoresTheCipheredData := by
  rintro s x rfl hm hkey hsrc haux hdst
  have hpass : firstFailure (ctrChecks s.operands) = none :=
    firstFailure_cons_of_ok (Snapshot.keyCheck_ok_iff.mpr hkey) <|
    firstFailure_cons_of_ok (Snapshot.src_check_ok_iff.mpr hsrc) <|
    firstFailure_cons_of_ok (Snapshot.aux_check_ok_iff.mpr haux) <|
    firstFailure_cons_of_ok (Snapshot.dst_check_ok_iff.mpr hdst) rfl
  exact stores_of_passed hm hpass

/-- Settles O50: the checks pass, where KDF has one more, and the commit stores the derived bytes. -/
theorem kdfCommandsStoreDerivedBytes : Obligations.KdfCommandsStoreDerivedBytes := by
  rintro s x rfl hm hkey hsrc hdst
  have hkeyOk := Snapshot.keyCheck_ok_iff.mpr hkey
  have hsrcOk := Snapshot.src_check_ok_iff.mpr hsrc
  have hdstOk := Snapshot.dst_check_ok_iff.mpr hdst
  refine ⟨fun haux => ?kdf, ?kdfNum⟩
  case kdf =>
    have hpass : firstFailure (kdfChecks s.operands) = none :=
      firstFailure_cons_of_ok hkeyOk <| firstFailure_cons_of_ok hsrcOk <|
      firstFailure_cons_of_ok (Snapshot.aux_check_ok_iff.mpr haux) <| firstFailure_cons_of_ok hdstOk rfl
    exact stores_of_passed hm hpass
  case kdfNum =>
    have hpass : firstFailure (kdfNumChecks s.operands) = none :=
      firstFailure_cons_of_ok hkeyOk <| firstFailure_cons_of_ok hsrcOk <| firstFailure_cons_of_ok hdstOk rfl
    exact stores_of_passed hm hpass

end Sys2Proof.Machine
end

section
/-! The statements about the commands of the key schedule (R97 to R99). -/

namespace Sys2Proof.Machine

/-! ## When the checks pass -/

section
variable {x : Snapshot} (hkey : KeyLegal x)
include hkey

theorem ksStage1Checks_pass (hdst : Fits x.regs.dstOff (2 * x.regs.keylen.toNat)) :
    firstFailure (ksStage1Checks x) = none :=
  firstFailure_cons_of_ok (Snapshot.keyCheck_ok_iff.mpr hkey) <|
  firstFailure_cons_of_ok (Snapshot.dst_check_ok_iff.mpr hdst) rfl

theorem ksStage2Checks_pass (hsrc : Fits x.regs.srcOff (2 * x.regs.keylen.toNat))
    (hdst : Fits x.regs.dstOff (12 + x.regs.keylen.toNat)) : firstFailure (ksStage2Checks x) = none :=
  firstFailure_cons_of_ok (Snapshot.keyCheck_ok_iff.mpr hkey) <|
  firstFailure_cons_of_ok (Snapshot.src_check_ok_iff.mpr hsrc) <|
  firstFailure_cons_of_ok (Snapshot.dst_check_ok_iff.mpr hdst) rfl

theorem ksDeriveChecks_pass (hdst : Fits x.regs.dstOff (12 + x.regs.keylen.toNat)) :
    firstFailure (ksDeriveChecks x) = none :=
  firstFailure_cons_of_ok (Snapshot.keyCheck_ok_iff.mpr hkey) <|
  firstFailure_cons_of_ok (Snapshot.dst_check_ok_iff.mpr hdst) rfl

end

/-! ## The second stage on what the first one stored -/

theorem stage2_ek_of_length (nonceKey : Bytes) {eki : Bytes} {kl : Nat} (h : eki.length = kl) (s : BitVec 10) :
    (stage2 nonceKey eki s).ek = kdf eki labelKey (dec s.toNat) kl := by
  rw [stage2, h]

/-- The first stage's keys, of the key's length each, read back from where they were stored one after the other. -/
theorem stage2_of_stored_stage1 {m : Memory} (hm : m.wf = true) (off : Nat) {mk : Bytes} (t : Word) (s : BitVec 10) {kl : Nat}
    (hkl : mk.length = kl) :
    stage2 ((m.write off ((stage1 mk t).nonceKey ++ (stage1 mk t).eki)).read off kl)
        ((m.write off ((stage1 mk t).nonceKey ++ (stage1 mk t).eki)).read (off + kl) kl) s =
      ⟨(schedule mk t s).nonce, (schedule mk t s).ek⟩ := by
  have hnonceKey : (stage1 mk t).nonceKey.length = kl := (length_schedule_nonceKey mk t s).trans hkl
  have heki : (stage1 mk t).eki.length = kl := (length_schedule_eki mk t s).trans hkl
  have hfirst := Memory.read_write_append_left off (stage1 mk t).nonceKey (stage1 mk t).eki hm
  have hsecond := Memory.read_write_append_right off (stage1 mk t).nonceKey (stage1 mk t).eki hm
  rw [hnonceKey] at hfirst hsecond
  rw [heki] at hsecond
  rw [hfirst, hsecond, schedule_nonce_eq_stage2, schedule_ek_eq_stage2]

theorem exec_ksStage1_of_passed {s : State} {x : Snapshot} (hx : s.operands = x)
    (h : firstFailure (ksStage1Checks x) = none) :
    exec .ksStage1 s = .next (s.commit {
      mem := some (x.dstOff, (stage1 x.opKey x.regs.tc).nonceKey ++ (stage1 x.opKey x.regs.tc).eki) }) := by
  subst hx
  exact validated_of_passed h

/-- KS_STAGE2 does what KS_DERIVE does where the keys it reads are those of the key's own first stage (R99). -/
theorem ksStage2_alike_ksDerive {s : State} (hstage2 : firstFailure (ksStage2Checks s.operands) = none)
    (hderive : firstFailure (ksDeriveChecks s.operands) = none)
    (hkeys : stage2 (s.operands.buf.read s.operands.regs.srcOff.toNat s.operands.kl)
        (s.operands.buf.read (s.operands.regs.srcOff.toNat + s.operands.kl) s.operands.kl) s.operands.regs.seq =
      ⟨(schedule s.operands.opKey s.operands.regs.tc s.operands.regs.seq).nonce,
        (schedule s.operands.opKey s.operands.regs.tc s.operands.regs.seq).ek⟩) :
    ∃ u v, exec .ksStage2 s = .next u ∧ exec .ksDerive s = .next v ∧ u = v := by
  have hexec : exec .ksStage2 s = .next (s.commit { mem := some (s.operands.dstOff, _) }) := validated_of_passed hstage2
  rw [hexec, hkeys]
  exact ⟨_, _, rfl, validated_of_passed hderive, rfl⟩

/-! ## The statements -/

/-- Settles O51: the checks pass, and the commit stores the first stage, whose lengths are the key's. -/
theorem ksStage1StoresTheFirstStage : Obligations.KsStage1StoresTheFirstStage := by
  rintro s x rfl hm hkey hdst
  rw [← length_opKey_of_keyLegal hkey]
  exact stores_of_passed hm (ksStage1Checks_pass hkey hdst)

/-- Settles O52: the checks pass, and the commit stores the second stage, whose EKI has the length that was read. -/
theorem ksStage2StoresTheSecondStage : Obligations.KsStage2StoresTheSecondStage := by
  rintro s x rfl hm hkey hsrc hdst
  have hek := stage2_ek_of_length (s.operands.buf.read s.operands.regs.srcOff.toNat s.operands.kl)
    (Memory.length_read s.operands.buf (s.operands.regs.srcOff.toNat + s.operands.kl) s.operands.kl) s.operands.regs.seq
  exact (stores_of_passed hm (ksStage2Checks_pass hkey hsrc hdst)).of_eq (congrArg (_ ++ ·) hek)

/-- Settles O53: the checks pass, and the commit stores the Nonce and EK. -/
theorem ksDeriveStoresTheWholeSchedule : Obligations.KsDeriveStoresTheWholeSchedule := by
  rintro s x rfl hm hkey hdst
  exact stores_of_passed hm (ksDeriveChecks_pass hkey hdst)

/-- Settles O54: after KS_STAGE1 both commands pass their checks, and what KS_STAGE2 reads are the first-stage keys of the
schedule that KS_DERIVE computes afresh; so they store one string at one place. -/
theorem stageCommandsComposeToKsDerive : Obligations.StageCommandsComposeToKsDerive := by
  intro s hsnap hm hkey hdst
  have hlive : s.operands = s.liveInputs := State.operands_of_snap_none hsnap
  have hkl : s.liveInputs.opKey.length = s.regs.keylen.toNat := length_opKey_of_keyLegal hkey
  refine ⟨_, exec_ksStage1_of_passed hlive (ksStage1Checks_pass hkey hdst), fun d hd => ?_⟩
  refine ksStage2_alike_ksDerive (ksStage2Checks_pass ?key ?src ?dst) (ksDeriveChecks_pass ?key ?dst) ?stages
  case key => exact hkey
  case src => exact hdst
  case dst => exact hd
  case stages => exact stage2_of_stored_stage1 hm s.regs.dstOff.toNat s.regs.tc s.regs.seq hkl

end Sys2Proof.Machine
end

section
/-! Rules of the completion of PARSE, BUILD, ENCRYPT, the decryption commands and TIME2TC (R105, R106, R112 to R116). -/

namespace Sys2Proof.Machine

/-- A number below 2^16 fits a 16-bit result register (R37, R38). -/
theorem toNat_ofNat16_of_lt {n : Nat} (h : n < 2 ^ 16) : (BitVec.ofNat 16 n).toNat = n :=
  (BitVec.toNat_ofNat n 16).trans (Nat.mod_eq_of_lt h)

/-! ## When the checks pass -/

section
variable {x : Snapshot} (hkey : KeyLegal x) (hsrc : Fits x.regs.srcOff x.regs.srcLen.toNat)
  (hmin : 10 ≤ x.regs.srcLen.toNat)

include hsrc in
theorem Snapshot.srcLen_le : x.regs.srcLen.toNat ≤ 512 :=
  (Nat.le_add_left _ _).trans hsrc

include hsrc in
theorem Snapshot.payloadLen_lt : x.payloadLen < 2 ^ 16 :=
  (Nat.sub_le _ _).trans_lt ((Snapshot.srcLen_le hsrc).trans_lt (by decide))

include hsrc hmin in
theorem parseChecks_pass : firstFailure (parseChecks x) = none :=
  firstFailure_cons_of_ok (Snapshot.src_check_ok_iff.mpr hsrc) <|
  firstFailure_cons_of_ok (Snapshot.packetCheck_ok_iff.mpr hmin) rfl

include hsrc in
theorem buildChecks_pass (haux : Fits x.regs.auxOff 4) (hdst : Fits x.regs.dstOff (x.regs.srcLen.toNat + 10)) :
    firstFailure (buildChecks x) = none :=
  firstFailure_cons_of_ok (Snapshot.src_check_ok_iff.mpr hsrc) <|
  firstFailure_cons_of_ok (Snapshot.aux_check_ok_iff.mpr haux) <|
  firstFailure_cons_of_ok (Snapshot.dst_check_ok_iff.mpr hdst) rfl

include hkey hsrc in
theorem encryptChecks_pass (hdst : Fits x.regs.dstOff (x.regs.srcLen.toNat + 10)) :
    firstFailure (encryptChecks x) = none :=
  firstFailure_cons_of_ok (Snapshot.keyCheck_ok_iff.mpr hkey) <|
  firstFailure_cons_of_ok (Snapshot.src_check_ok_iff.mpr hsrc) <|
  firstFailure_cons_of_ok (Snapshot.dst_check_ok_iff.mpr hdst) rfl

include hkey hsrc hmin in
theorem decryptChecks_pass (hdst : Fits x.regs.dstOff (x.regs.srcLen.toNat - 10)) :
    firstFailure (decryptChecks x) = none :=
  firstFailure_cons_of_ok (Snapshot.keyCheck_ok_iff.mpr hkey) <|
  firstFailure_cons_of_ok (Snapshot.src_check_ok_iff.mpr hsrc) <|
  firstFailure_cons_of_ok (Snapshot.dst_check_ok_iff.mpr hdst) <|
  firstFailure_cons_of_ok (Snapshot.packetCheck_ok_iff.mpr hmin) rfl

include hkey hsrc hmin in
theorem findTcChecks_pass : firstFailure (findTcChecks x) = none :=
  firstFailure_cons_of_ok (Snapshot.keyCheck_ok_iff.mpr hkey) <|
  firstFailure_cons_of_ok (Snapshot.src_check_ok_iff.mpr hsrc) <|
  firstFailure_cons_of_ok (Snapshot.packetCheck_ok_iff.mpr hmin) rfl

end

/-- DECRYPT_KNOWN makes the checks of DECRYPT (R62). -/
theorem decryptKnownChecks_eq_decryptChecks (x : Snapshot) : decryptKnownChecks x = decryptChecks x := rfl

/-- The checks of FIND_TC are those of DECRYPT without the region of the plaintext (R62). -/
theorem decryptChecks_pass_of_findTcChecks {x : Snapshot} (h : firstFailure (findTcChecks x) = none)
    (hdst : Fits x.regs.dstOff (x.regs.srcLen.toNat - 10)) : firstFailure (decryptChecks x) = none := by
  obtain ⟨hkey, h⟩ := firstFailure_cons_iff.mp h
  obtain ⟨hsrc, h⟩ := firstFailure_cons_iff.mp h
  obtain ⟨hmin, _⟩ := firstFailure_cons_iff.mp h
  exact firstFailure_cons_of_ok hkey <| firstFailure_cons_of_ok hsrc <|
    firstFailure_cons_of_ok (Snapshot.dst_check_ok_iff.mpr hdst) <| firstFailure_cons_of_ok hmin rfl

/-! ## The search -/

/-- What a search finds is what the attempt at its counter finds (R110). -/
theorem tryDecrypt_of_search {mk raw : Bytes} {time : Int} {w : Nat} {r : Opened} (h : search mk raw time w = some r) :
    tryDecrypt mk raw r.tc = some r := by
  obtain ⟨c, _, hc⟩ := searchIn_spec h
  obtain ⟨rfl, _⟩ := tryDecrypt_spec hc
  exact hc

/-! ## What the commands answer -/

/-- The commit of a packet that is made: the packet at DST_OFF and its length (R106, R112). -/
theorem stores_packet_of_passed {s : State} {cs : List Check} {off n : Nat} {bs : Bytes} (hm : s.buf.wf = true)
    (hn : n < 2 ^ 16) (hpass : firstFailure cs = none) :
    ∃ t, validated s cs (.next (s.commit { mem := some (off, bs), resLen := some (BitVec.ofNat 16 n) })) = .next t ∧
      Wrote s.buf t.buf off bs ∧ t.res.len.toNat = n ∧
      t = { s.finished with buf := t.buf, res := { s.res with len := t.res.len } } :=
  ⟨_, validated_of_passed hpass, wrote_write off bs hm, toNat_ofNat16_of_lt hn, rfl⟩

/-- The commit of a packet that is opened (R113, R114). -/
def openedCommit (off n : Nat) (r : Opened) : Commit :=
  { mem := some (off, r.plaintext), resTc := some r.tc, resSeq := some r.seq, resLen := some (BitVec.ofNat 16 n),
    matched := some true }

/-- The commit of a search that leaves the plaintext (R115). -/
def foundCommit (r : Opened) : Commit := { resTc := some r.tc, resSeq := some r.seq, matched := some true }

/-- The state with another counter in TC. -/
def State.withTc (c : Word) (s : State) : State := { s with regs := { s.regs with tc := c } }

section
variable {s : State} {x : Snapshot} (hx : s.operands = x)
include hx

theorem exec_decryptKnown_of_passed (h : firstFailure (decryptChecks x) = none) :
    exec .decryptKnown s = attempted s .authenticationFailure (tryDecrypt x.opKey x.srcBytes x.regs.tc)
      (openedCommit x.dstOff x.payloadLen) := by
  subst hx
  exact validated_of_passed h

theorem exec_decrypt_of_passed (h : firstFailure (decryptChecks x) = none) :
    exec .decrypt s = attempted s .decryptionFailed (search x.opKey x.srcBytes x.time x.regs.window.toNat)
      (openedCommit x.dstOff x.payloadLen) := by
  subst hx
  exact validated_of_passed h

theorem exec_findTc_of_passed (h : firstFailure (findTcChecks x) = none) :
    exec .findTc s = attempted s .decryptionFailed (search x.opKey x.srcBytes x.time x.regs.window.toNat)
      foundCommit := by
  subst hx
  exact validated_of_passed h

end

/-- The commit of a packet that is opened stores the plaintext, sets the registers it names and MATCH, and keeps the rest. -/
theorem commit_openedCommit {s : State} (off : Nat) {n : Nat} (r : Opened) (hm : s.buf.wf = true) (hn : n < 2 ^ 16) :
    Wrote s.buf (s.commit (openedCommit off n r)).buf off r.plaintext ∧
      (s.commit (openedCommit off n r)).res.len.toNat = n ∧
      s.commit (openedCommit off n r) = { s.finished with
        buf := (s.commit (openedCommit off n r)).buf
        res := (s.commit (openedCommit off n r)).res
        matched := true } :=
  ⟨wrote_write off r.plaintext hm, toNat_ofNat16_of_lt hn, rfl⟩

end Sys2Proof.Machine
end

section
/-! The statements about PARSE, BUILD, ENCRYPT, the decryption commands and TIME2TC (R105, R106, R112 to R116). -/

namespace Sys2Proof.Machine

/-- Settles O55: the checks pass; the sequence number is masked out of the first two bytes, and the region bounds the offset. -/
theorem parseLocatesThePayload : Obligations.ParseLocatesThePayload := by
  rintro s x rfl hsrc hmin
  have hfits : s.operands.regs.srcOff.toNat + s.operands.regs.srcLen.toNat ≤ 512 := hsrc
  have hfirst : slice s.operands.srcBytes 0 2 = s.operands.buf.read s.operands.regs.srcOff.toNat 2 :=
    Memory.take_read _ (Nat.le_of_add_left_le (k := 8) hmin)
  refine ⟨_, validated_of_passed (parseChecks_pass hsrc hmin), ?seq, ?off, ?len, rfl, rfl⟩
  case seq => exact (toNat_packetSeq _).trans (by rw [hfirst])
  case off => exact toNat_ofNat16_of_lt (by omega)
  case len => exact toNat_ofNat16_of_lt (n := s.operands.regs.srcLen.toNat - 10) (by omega)

/-- Settles O56: the checks of each pass, and the commit stores the packet. -/
theorem buildAndEncryptStoreThePacket : Obligations.BuildAndEncryptStoreThePacket := by
  rintro s x rfl hm hsrc hdst
  have hlen : s.operands.regs.srcLen.toNat + 10 < 2 ^ 16 := by
    have hle := Snapshot.srcLen_le hsrc
    omega
  exact ⟨fun haux => stores_packet_of_passed hm hlen (buildChecks_pass hsrc haux hdst),
    fun hkey => stores_packet_of_passed hm hlen (encryptChecks_pass hkey hsrc hdst)⟩

/-- Settles O57: the tags are compared as byte strings, and the attempt at TC decides how the command ends. -/
theorem decryptKnownOpensThePacketAtTc : Obligations.DecryptKnownOpensThePacketAtTc := by
  refine ⟨fun mk raw c hmin => ?attempt, ?command⟩
  case attempt =>
    rw [tryDecrypt_eq_ite mk c hmin, openedAt, packetPayload_eq_drop, be32_zero]
    exact ⟨fun htag => if_pos htag, fun htag => if_neg htag⟩
  case command =>
    rintro s x rfl hm hkey hsrc hmin hdst
    have hexec := exec_decryptKnown_of_passed rfl (decryptChecks_pass hkey hsrc hmin hdst)
    refine ⟨fun r htry => ?opened, fun htry => ?failed⟩
    case opened =>
      obtain ⟨htc, hseq, hplain⟩ := tryDecrypt_spec htry
      rw [htry] at hexec
      obtain ⟨hwrote, hresLen, hframe⟩ := commit_openedCommit s.operands.dstOff r hm (Snapshot.payloadLen_lt hsrc)
      exact ⟨_, hexec, hwrote, hplain.trans (by rw [Snapshot.length_srcBytes]; rfl), htc, hseq, hresLen, rfl, rfl, hframe⟩
    case failed =>
      rw [htry] at hexec
      exact hexec

/-- Settles O58: the search decides how both commands end. -/
theorem decryptAndFindTcReturnTheSearch : Obligations.DecryptAndFindTcReturnTheSearch := by
  rintro s x rfl hm hkey hsrc hmin
  have hfindTc := exec_findTc_of_passed rfl (findTcChecks_pass hkey hsrc hmin)
  refine ⟨fun r hsearch => ⟨fun hdst => ?decrypt, ?findTc⟩, fun hsearch => ⟨fun hdst => ?decryptFailed, ?findTcFailed⟩⟩
  case decrypt =>
    have hexec := exec_decrypt_of_passed rfl (decryptChecks_pass hkey hsrc hmin hdst)
    rw [hsearch] at hexec
    obtain ⟨_, hseq, hplain⟩ := tryDecrypt_spec (tryDecrypt_of_search hsearch)
    obtain ⟨hwrote, hresLen, hframe⟩ := commit_openedCommit s.operands.dstOff r hm (Snapshot.payloadLen_lt hsrc)
    exact ⟨_, hexec, hwrote, hplain.trans (by rw [Snapshot.length_srcBytes]; rfl), rfl, hseq, hresLen, rfl, rfl, hframe⟩
  case findTc =>
    obtain ⟨_, hseq, _⟩ := tryDecrypt_spec (tryDecrypt_of_search hsearch)
    rw [hfindTc, hsearch, ← hseq]
    rfl
  case decryptFailed =>
    have hexec := exec_decrypt_of_passed rfl (decryptChecks_pass hkey hsrc hmin hdst)
    rw [hexec, hsearch]
    rfl
  case findTcFailed =>
    rw [hfindTc, hsearch]
    rfl

/-- Settles O59: FIND_TC leaves the counter that its search found, where DECRYPT_KNOWN's attempt opens what DECRYPT's search
opens; both commit it. -/
theorem findTcThenDecryptKnownIsDecrypt : Obligations.FindTcThenDecryptKnownIsDecrypt := by
  intro s t hsnap _ hdst hexec herr
  have hlive := State.operands_of_snap_none hsnap
  obtain ⟨hpass, r, hsearch, rfl⟩ := validated_attempt_of_no_err (cs := findTcChecks s.operands) (c := foundCommit) hexec herr
  rw [hlive] at hpass hsearch
  have hchecks := decryptChecks_pass_of_findTcChecks hpass hdst
  have hdecrypt := exec_decrypt_of_passed hlive hchecks
  rw [hsearch] at hdecrypt
  have hknown : exec .decryptKnown ((s.commit (foundCommit r)).withTc r.tc) =
      .next (((s.commit (foundCommit r)).withTc r.tc).commit
        (openedCommit s.liveInputs.dstOff s.liveInputs.payloadLen r)) := by
    have htry : tryDecrypt s.liveInputs.opKey s.liveInputs.srcBytes r.tc = some r := tryDecrypt_of_search hsearch
    rw [exec_decryptKnown_of_passed (x := { s.liveInputs with regs := { s.regs with tc := r.tc } }) rfl hchecks]
    exact congrArg (attempted _ _ · _) htry
  exact ⟨_, _, hknown, hdecrypt, rfl⟩

/-- Settles O60: the one check is that the day of TIME is a 32-bit unsigned value, and the commit stores that day. -/
theorem time2tcStoresTheDay : Obligations.Time2tcStoresTheDay := by
  rintro s x rfl
  refine ⟨fun hlow hhigh => ?day, fun hout => ?outOfRange⟩
  case day =>
    have hday : s.operands.timeCheck.ok = true := by
      rw [← Bool.not_eq_false, s.operands.timeCheck_fails_iff]
      omega
    exact ⟨_, validated_of_passed (firstFailure_cons_of_ok hday rfl), toNat_ofInt_of_dayInRange hday, rfl⟩
  case outOfRange =>
    have hfail : firstFailure (ruleChecks .time2tc s.operands) = some .timeOutOfRange := by
      rw [← s.operands.timeCheck_fails_iff] at hout
      exact (firstFailure_cons _ []).trans (if_pos hout)
    exact exec_of_failed hfail

end Sys2Proof.Machine
end
